-- ==== Sys2Proof/Word.lean ====
section
/-! DEFINITION. The word types of the machine (00_scope.md R8, R9). -/

namespace Sys2Proof

/-- `u8`: a register, a byte of memory. -/
abbrev Byte := BitVec 8

/-- `u16`: an address of the CPU space, a value of PC. Its arithmetic wraps mod 65536 (20_memory.md R51). -/
abbrev Addr := BitVec 16

/-- A framebuffer entry: a 6-bit hardware-palette index, 0..63 (10_state.md R35). -/
abbrev Pixel := BitVec 6

end Sys2Proof
end

