-- ==== Sys2Proof/Machine/Bytes.lean ====
section
/-! DEFINITION. Byte order: the bytes of a 16-bit value (00_scope.md R8, 20_memory.md R58). -/

namespace Sys2Proof

/-- The two bytes `hi:lo` as a 16-bit value, `hi` the high byte (00_scope.md R8). -/
def word16 (hi lo : Byte) : Addr := hi ++ lo

/-- The low byte of a 16-bit value, `a & 0xFF`. -/
def loByte (a : Addr) : Byte := a.extractLsb' 0 8

/-- The high byte of a 16-bit value, `a >> 8`. -/
def hiByte (a : Addr) : Byte := a.extractLsb' 8 8

end Sys2Proof
end

