-- ==== Sys2Proof/Config.lean ====
section
/-! DEFINITION. The parameters of the machine (00_scope.md R7) as one plain record, and the free values of the
OPEN ones. "A model takes each one as an argument of its configuration": the record stands in State and no action
writes it (10_state.md R42; log 1), so that a statement about every state is about every configuration. The values
the spec takes are `Config.taken`, in Machine/Params.lean. -/

namespace Sys2Proof

/-- `RESET_PC_MODE` (70_reset_and_hazards.md R241): the word at 0xFFFC/0xFFFD, or a fixed address. -/
inductive ResetPcMode where
  | vector
  | fixed (v : Addr)
  deriving DecidableEq, Repr

/-- `CHR_TRUNCATION` (40_cartridge.md R107): what a pattern region that is cut short does. -/
inductive ChrTruncation where
  | zeroFill
  | formatError
  deriving DecidableEq, Repr

/-- `PALETTE_SOURCE` (20_memory.md R63): where the rasterizer looks a colour up. -/
inductive PaletteSource where
  | patternSpace
  | paletteMemory
  deriving DecidableEq, Repr

/-- `SPEED`: a non-negative rational `num / den` (60_exceptions.md R211; log 20). -/
structure Speed where
  num : Nat
  den : Nat
  den_pos : 0 < den
  deriving DecidableEq, Repr

/-- A function of `n` bytes to a byte, written as plain data: what the two parameters of R7 that are functions are made of.
`ByteExpr.eval` gives its value; every function of one byte and of two is one (Laws/Params.lean; log 46). -/
inductive ByteExpr (n : Nat) where
  | arg (i : Fin n)
  | const (v : Byte)
  | and (e₁ e₂ : ByteExpr n)
  | or (e₁ e₂ : ByteExpr n)
  | shiftLeft (e : ByteExpr n) (k : Nat)
  | shiftRight (e : ByteExpr n) (k : Nat)
  /-- `e₁` where argument `i` is `v`, `e₂` where it is not. -/
  | ifArg (i : Fin n) (v : Byte) (e₁ e₂ : ByteExpr n)
  deriving DecidableEq, Repr

/-- The parameters of 00_scope.md R7, one field each (SPEED is a field of State: the host may change it, R42). -/
structure Config where
  /-- `OPC_LDA_IMM`, `OPC_LDA_ABS`, `OPC_STA_ABS`, `OPC_JMP_ABS` (30_encoding.md R86). -/
  opcLdaImm : Byte
  opcLdaAbs : Byte
  opcStaAbs : Byte
  opcJmpAbs : Byte
  /-- `BIT_N`, `BIT_Z`, `BIT_I`: positions in P (10_state.md R25). -/
  bitN : Fin 8
  bitZ : Fin 8
  bitI : Fin 8
  /-- `STACK_BASE` (10_state.md R24). -/
  stackBase : Addr
  /-- `NMI_PUSHED_P`: the byte pushed as status, a function of P (60_exceptions.md R205). -/
  nmiPushedP : ByteExpr 1
  /-- `RESET_A`, `RESET_X`, `RESET_Y`, `RESET_S`, `RESET_P` (10_state.md R41). -/
  resetA : Byte
  resetX : Byte
  resetY : Byte
  resetS : Byte
  resetP : Byte
  /-- `RESET_PC_MODE`. -/
  resetPcMode : ResetPcMode
  /-- `PRG_WINDOW_WRITABLE` (20_memory.md R54). -/
  prgWindowWritable : Bool
  /-- `MAGIC`: the first four bytes of an image (40_cartridge.md R101). -/
  magic0 : Byte
  magic1 : Byte
  magic2 : Byte
  magic3 : Byte
  /-- `HEADER_LEN`: where the program region starts (40_cartridge.md R106). -/
  headerLen : Nat
  /-- `MAPPER_ID`: a function of header bytes 6 and 7 (40_cartridge.md R105). -/
  mapperId : ByteExpr 2
  /-- `CHR_TRUNCATION`. -/
  chrTruncation : ChrTruncation
  /-- `PALETTE_SOURCE`. -/
  paletteSource : PaletteSource
  /-- `INPUT_ADDR`, `PRIMARY_BUTTON`, `INPUT_ON`, `INPUT_OFF` (45_input_latch.md R171). -/
  inputAddr : Addr
  primaryButton : Fin 8
  inputOn : Byte
  inputOff : Byte
  /-- `BASE_CYCLES_PER_FRAME`, OPEN (60_exceptions.md R211). -/
  baseCyclesPerFrame : Nat
  /-- `FRAME_PERIOD`, OPEN; no rule reads it (60_exceptions.md R215). -/
  framePeriod : Nat
  deriving DecidableEq, Repr

/-- The OPEN value of BASE_CYCLES_PER_FRAME: a free value (00_scope.md R7, D23; log 19). -/
opaque Config.freeBaseCyclesPerFrame : Nat

/-- The OPEN value of FRAME_PERIOD: a free value (D30; log 19). -/
opaque Config.freeFramePeriod : Nat

/-- The OPEN value SPEED has before the host sets it is `freeSpeedNum / (freeSpeedDenPred + 1)` (D24; log 19). -/
opaque Config.freeSpeedNum : Nat

/-- See `freeSpeedNum`. -/
opaque Config.freeSpeedDenPred : Nat

/-- SPEED before any `SetSpeed`: any non-negative rational (60_exceptions.md R211). -/
def Config.initialSpeed : Speed :=
  { num := Config.freeSpeedNum, den := Config.freeSpeedDenPred + 1, den_pos := Nat.succ_pos _ }

end Sys2Proof
end

