-- ==== Sys2Proof/Machine/Params.lean ====
section
/-! DEFINITION. The fixed sizes and addresses (00_scope.md R6) and the values the spec takes for the parameters of
00_scope.md R7. Most of R7's values are the spec's own decisions (92_eei_decisions.md), several from general
knowledge of the 6502/NES family: log 2 to log 21. R6's literals are unaudited: log 44. -/

namespace Sys2Proof

/-- `MEM_SIZE` (00_scope.md R6). -/
@[simp] def memSize : Nat := 65536
/-- `PAT_SIZE`. -/
@[simp] def patSize : Nat := 16384
/-- `NT_SIZE`. -/
@[simp] def ntSize : Nat := 8192
/-- `PAL_SIZE`. -/
@[simp] def palSize : Nat := 32
/-- `FB_W`. -/
@[simp] def fbWidth : Nat := 256
/-- `FB_H`. -/
@[simp] def fbHeight : Nat := 240
/-- `FB_W` × `FB_H`, the number of framebuffer entries. -/
@[simp] def fbSize : Nat := 61440
/-- `PRG_BANK`. -/
@[simp] def prgBank : Nat := 16384
/-- `CHR_BANK`. -/
@[simp] def chrBank : Nat := 8192
/-- `WIN0`. -/
@[simp] def win0 : Nat := 0x8000
/-- `WIN1`. -/
@[simp] def win1 : Nat := 0xC000
/-- `PALETTE_BASE`. -/
@[simp] def paletteBase : Nat := 0x3F00
/-- `NMI_VECTOR`, its low byte's address. -/
def nmiVector : Addr := 0xFFFA
/-- The reset vector's low byte's address (70_reset_and_hazards.md R241, D6; log 7). -/
def resetVector : Addr := 0xFFFC

/-- The cost of interrupt service (00_scope.md R6, 60_exceptions.md R205). -/
def interruptCost : Nat := 7

/-- R7's column "value taken". -/
def Config.taken : Config where
  opcLdaImm := 0xA9
  opcLdaAbs := 0xAD
  opcStaAbs := 0x8D
  opcJmpAbs := 0x4C
  bitN := 7
  bitZ := 1
  bitI := 2
  stackBase := 0x0100
  nmiPushedP := .arg 0
  resetA := 0x00
  resetX := 0x00
  resetY := 0x00
  resetS := 0xFD
  resetP := 0x24
  resetPcMode := .vector
  prgWindowWritable := true
  magic0 := 0x4E
  magic1 := 0x45
  magic2 := 0x53
  magic3 := 0x1A
  headerLen := 16
  mapperId := .or (.and (.arg 1) (.const 0xF0)) (.shiftRight (.arg 0) 4)
  chrTruncation := .zeroFill
  paletteSource := .patternSpace
  inputAddr := 0x4016
  primaryButton := 0
  inputOn := 0x01
  inputOff := 0x00
  baseCyclesPerFrame := Config.freeBaseCyclesPerFrame
  framePeriod := Config.freeFramePeriod

/-- The value of an expression at its arguments. -/
def ByteExpr.eval {n : Nat} (args : Fin n → Byte) : ByteExpr n → Byte
  | .arg i => args i
  | .const v => v
  | .and e₁ e₂ => e₁.eval args &&& e₂.eval args
  | .or e₁ e₂ => e₁.eval args ||| e₂.eval args
  | .shiftLeft e k => e.eval args <<< k
  | .shiftRight e k => e.eval args >>> k
  | .ifArg i v e₁ e₂ => if args i = v then e₁.eval args else e₂.eval args

/-- `NMI_PUSHED_P(p)`: the byte interrupt service pushes as status (60_exceptions.md R205; R7's value is the identity,
D4: log 5). -/
def nmiPushedP (c : Config) (p : Byte) : Byte := c.nmiPushedP.eval (fun _ => p)

/-- `MAPPER_ID(b6, b7)` (40_cartridge.md R105; R7's value is `(b7 & 0xF0) | (b6 >> 4)`, D11: log 10). -/
def mapperId (c : Config) (b6 b7 : Byte) : Byte := c.mapperId.eval (fun i => if i = 0 then b6 else b7)

end Sys2Proof
end

