-- ==== Sys2Proof/Syntax.lean ====
section
/-! DEFINITION. The instructions: one constructor per row of the opcode table (30_encoding.md R86), its operands
already assembled (R84, R85). -/

namespace Sys2Proof

/-- An instruction as decoded. -/
inductive Instr where
  /-- `LDA #imm8`, format IMM8 (30_encoding.md R82, R84). -/
  | ldaImm (imm8 : Byte)
  /-- `LDA addr16`, format ABS16 (30_encoding.md R83, R85). -/
  | ldaAbs (addr16 : Addr)
  /-- `STA addr16`, format ABS16. -/
  | staAbs (addr16 : Addr)
  /-- `JMP addr16`, format ABS16. -/
  | jmpAbs (addr16 : Addr)
  /-- The default entry, format OP: any opcode byte without a row of its own, kept (30_encoding.md R81, R88). -/
  | unimpl (opcode : Byte)
  deriving DecidableEq, Repr

/-- The handlers the dispatch table names (30_encoding.md R87). -/
inductive Handler where
  | ldaImm
  | ldaAbs
  | staAbs
  | jmpAbs
  | unimpl
  deriving DecidableEq, Repr

/-- The handler of an instruction. -/
def Instr.handler : Instr → Handler
  | .ldaImm _ => .ldaImm
  | .ldaAbs _ => .ldaAbs
  | .staAbs _ => .staAbs
  | .jmpAbs _ => .jmpAbs
  | .unimpl _ => .unimpl

end Sys2Proof
end

