-- ==== Sys2Proof/WellFormed.lean ====
section
/-! DEFINITION. The checks a configuration and an instruction pass. -/

namespace Sys2Proof

/-- "The four `OPC_*` parameters must be pairwise distinct" (30_encoding.md R86). -/
def Config.opcodesDistinct (c : Config) : Bool :=
  c.opcLdaImm != c.opcLdaAbs && c.opcLdaImm != c.opcStaAbs && c.opcLdaImm != c.opcJmpAbs &&
  c.opcLdaAbs != c.opcStaAbs && c.opcLdaAbs != c.opcJmpAbs && c.opcStaAbs != c.opcJmpAbs

/-- DEDUCED (10_state.md R25, log 40): N, Z and I are three different bits of P. -/
def Config.bitsDistinct (c : Config) : Bool :=
  c.bitN != c.bitZ && c.bitN != c.bitI && c.bitZ != c.bitI

/-- "`INPUT_ADDR` is outside the windows" (45_input_latch.md R171). -/
def Config.inputOutsideWindows (c : Config) : Bool :=
  decide (c.inputAddr.toNat < 0x8000)

/-- A well-formed configuration. -/
def Config.wf (c : Config) : Bool :=
  c.opcodesDistinct && c.bitsDistinct && c.inputOutsideWindows

/-- An instruction is well-formed when it is what its own opcode byte stands for: the default entry holds none of
the four implemented opcodes (30_encoding.md R86). Operands are never ill-formed (R89). -/
def Instr.wf (c : Config) : Instr → Bool
  | .ldaImm _ => true
  | .ldaAbs _ => true
  | .staAbs _ => true
  | .jmpAbs _ => true
  | .unimpl op => op != c.opcLdaImm && op != c.opcLdaAbs && op != c.opcStaAbs && op != c.opcJmpAbs

end Sys2Proof
end

