-- ==== Sys2Proof/Decode.lean ====
section
/-! DEFINITION. The dispatch table, the decoder and the encoder (30_encoding.md). -/

namespace Sys2Proof

/-- Which handler an opcode byte has: the four rows first, then the default entry (30_encoding.md R86, R87). -/
def handlerOf (c : Config) (op : Byte) : Handler :=
  if op = c.opcLdaImm then .ldaImm
  else if op = c.opcLdaAbs then .ldaAbs
  else if op = c.opcStaAbs then .staAbs
  else if op = c.opcJmpAbs then .jmpAbs
  else .unimpl

/-- The base cycle cost of a table entry (30_encoding.md R87, 70_reset_and_hazards.md R260). -/
def Handler.cost : Handler → Nat
  | .ldaImm => 2
  | .ldaAbs => 4
  | .staAbs => 4
  | .jmpAbs => 3
  | .unimpl => 2

/-- How many bytes an instruction of this handler has (30_encoding.md R80). -/
def Handler.length : Handler → Nat
  | .ldaImm => 2
  | .ldaAbs => 3
  | .staAbs => 3
  | .jmpAbs => 3
  | .unimpl => 1

/-- `T[op]`, one of the 256 entries of the dispatch table (30_encoding.md R87). -/
def tableEntry (c : Config) (op : Byte) : Handler × Nat :=
  (handlerOf c op, (handlerOf c op).cost)

/-- The cost of an instruction. -/
def Instr.cost (i : Instr) : Nat := i.handler.cost

/-- The length of an instruction in bytes. -/
def Instr.length (i : Instr) : Nat := i.handler.length

/-- Why bytes do not decode. The machine always hands the decoder three bytes, so none of these reaches a step. -/
inductive DecodeError where
  /-- There is no opcode byte. -/
  | noOpcode
  /-- The operand bytes of this opcode are cut short. -/
  | truncated (opcode : Byte)
  deriving DecidableEq, Repr

/-- The operand byte of format IMM8 (30_encoding.md R82, R84). -/
def decodeImm8 (op : Byte) (mk : Byte → Instr) : List Byte → Except DecodeError (Instr × List Byte)
  | imm8 :: rest => .ok (mk imm8, rest)
  | [] => .error (.truncated op)

/-- The operand bytes of format ABS16: low byte first (30_encoding.md R83, R85). -/
def decodeAbs16 (op : Byte) (mk : Addr → Instr) : List Byte → Except DecodeError (Instr × List Byte)
  | addrLo :: addrHi :: rest => .ok (mk (word16 addrHi addrLo), rest)
  | [_] => .error (.truncated op)
  | [] => .error (.truncated op)

/-- The decoder: one instruction and the bytes after it. "The opcode byte alone decides the length"
(30_encoding.md R80); every opcode and every operand value is legal (R88, R89). -/
def decode (c : Config) : List Byte → Except DecodeError (Instr × List Byte)
  | [] => .error .noOpcode
  | op :: rest =>
    match handlerOf c op with
    | .ldaImm => decodeImm8 op .ldaImm rest
    | .ldaAbs => decodeAbs16 op .ldaAbs rest
    | .staAbs => decodeAbs16 op .staAbs rest
    | .jmpAbs => decodeAbs16 op .jmpAbs rest
    | .unimpl => .ok (.unimpl op, rest)

/-- Format ABS16 written out: opcode, `addr_lo`, `addr_hi` (30_encoding.md R83). -/
def encodeAbs16 (op : Byte) (addr16 : Addr) : List Byte := [op, loByte addr16, hiByte addr16]

/-- The encoder (30_encoding.md R81 to R83, R86). -/
def encode (c : Config) : Instr → List Byte
  | .ldaImm imm8 => [c.opcLdaImm, imm8]
  | .ldaAbs addr16 => encodeAbs16 c.opcLdaAbs addr16
  | .staAbs addr16 => encodeAbs16 c.opcStaAbs addr16
  | .jmpAbs addr16 => encodeAbs16 c.opcJmpAbs addr16
  | .unimpl opcode => [opcode]

/-- The first three bytes of a little-endian word `w` of which the low `nbits` bits count, the bits above them 0:
the longest instruction (30_encoding.md R80, R81). -/
def tableWordBytes (nbits w : Nat) : List Byte :=
  [BitVec.ofNat 8 (w % 2 ^ nbits), BitVec.ofNat 8 (w % 2 ^ nbits / 256), BitVec.ofNat 8 (w % 2 ^ nbits / 65536)]

/-- What the decoder reads from a word numbered as opcode_table.json numbers it, with the opcodes R7 takes. -/
def decodeTableWord (nbits w : Nat) : Option Instr :=
  match decode Config.taken (tableWordBytes nbits w) with
  | .ok (i, _) => some i
  | .error _ => none

end Sys2Proof
end

