-- ==== Sys2Proof/Machine/Flags.lean ====
section
/-! DEFINITION. Every flag computation of the machine: Z and N after a load (42_cpu_load_store.md R130) and I at
interrupt service (10_state.md R28). -/

namespace Sys2Proof.Machine

/-- Bit `i` of a status byte set to `b`, the others kept (10_state.md R25: all bits are stored as written). -/
def putBit (p : Byte) (i : Fin 8) (b : Bool) : Byte :=
  if b then p ||| (1#8 <<< i.val) else p &&& ~~~(1#8 <<< i.val)

/-- `SetNZ(v)` on a status byte: Z iff the loaded byte is 0, N its bit 7 (42_cpu_load_store.md R130). -/
def setNZ (c : Config) (v : Byte) (p : Byte) : Byte :=
  putBit (putBit p c.bitZ (v == 0x00)) c.bitN (v.getLsbD 7)

/-- `P[BIT_I] <- 1` on a status byte (10_state.md R28, 60_exceptions.md R205). -/
def setI (c : Config) (p : Byte) : Byte := putBit p c.bitI true

end Sys2Proof.Machine
end

