-- ==== Sys2Proof/Machine/Memory.lean ====
section
/-! DEFINITION. An array of cells (M, PAT, NT, PAL, FB) as a list of (index, value) pairs in one canonical form:
indexes strictly rising, no value 0, and an index that is not listed reads as 0, the reset contents the spec gives
(10_state.md R41, 70_reset_and_hazards.md R240; log 8, log 33). `Memory 8` is a list of `Host.Cell`. -/

namespace Sys2Proof

/-- An array of `w`-bit cells. -/
abbrev Memory (w : Nat) := List (Nat × BitVec w)

/-- What an index that is not listed reads as (70_reset_and_hazards.md R240, D7; log 8). -/
def Memory.unlisted (w : Nat) : BitVec w := 0#w

/-- The value at an index. -/
def Memory.read {w : Nat} : Memory w → Nat → BitVec w
  | [], _ => Memory.unlisted w
  | (k, v) :: m, i => if k = i then v else Memory.read m i

/-- One cell in front of a list, left out when it holds what an unlisted index reads as. -/
def Memory.consCell {w : Nat} (k : Nat) (v : BitVec w) (m : Memory w) : Memory w :=
  if v = Memory.unlisted w then m else (k, v) :: m

/-- The array with the value at one index replaced; it keeps the canonical form. -/
def Memory.write {w : Nat} : Memory w → Nat → BitVec w → Memory w
  | [], i, v => Memory.consCell i v []
  | (k, u) :: m, i, v =>
    if i < k then Memory.consCell i v ((k, u) :: m)
    else if i = k then Memory.consCell i v m
    else (k, u) :: Memory.write m i v

/-- The canonical form of an array of `size` cells, from index `lo` on. -/
def Memory.wfFrom {w : Nat} (size : Nat) : Nat → Memory w → Bool
  | _, [] => true
  | lo, (k, v) :: m =>
    decide (lo ≤ k) && decide (k < size) && decide (v ≠ Memory.unlisted w) && Memory.wfFrom size (k + 1) m

/-- The canonical form of an array of `size` cells: indexes strictly rising and below `size`, no value 0. -/
def Memory.wf {w : Nat} (size : Nat) (m : Memory w) : Bool := Memory.wfFrom size 0 m

/-- The array that holds the list's values from index `base` on, and 0 elsewhere. -/
def Memory.ofList {w : Nat} : Nat → List (BitVec w) → Memory w
  | _, [] => []
  | base, v :: vs => Memory.consCell base v (Memory.ofList (base + 1) vs)

/-- The array of `n` cells from index `base` on whose cell `i` is `f i`, and 0 elsewhere. -/
def Memory.tabulate {w : Nat} (f : Nat → BitVec w) : Nat → Nat → Memory w
  | _, 0 => []
  | base, n + 1 => Memory.consCell base (f base) (Memory.tabulate f (base + 1) n)

/-- The first `size` cells of the array, one after another. -/
def Memory.toList {w : Nat} (size : Nat) (m : Memory w) : List (BitVec w) :=
  (List.range size).map (Memory.read m)

end Sys2Proof
end

