-- ==== Sys2Proof/Machine/Start.lean ====
section
/-! DEFINITION. The reset entry point (70_reset_and_hazards.md R241) and the input state at reset (R240). -/

namespace Sys2Proof

/-- Where the CPU starts (70_reset_and_hazards.md R241): the little-endian word at 0xFFFC/0xFFFD of M, or the fixed
address of `RESET_PC_MODE = fixed(v)` (log 7, log 41). -/
def startPc (c : Config) (mem : Memory 8) : Addr :=
  match c.resetPcMode with
  | .vector => word16 (Memory.read mem (resetVector + 1).toNat) (Memory.read mem resetVector.toNat)
  | .fixed v => v

/-- `IN[0..7] <- 0`. -/
def noButtons : Vector Bool 8 := #v[false, false, false, false, false, false, false, false]

end Sys2Proof
end

