-- ==== Sys2Proof/Machine/State.lean ====
section
/-! DEFINITION. The state of the CORE (10_state.md R20) as plain data, why a step can stop, what the host can ask for
and what it gets back, and the state after power-on reset (10_state.md R41, 70_reset_and_hazards.md R240). -/

namespace Sys2Proof.Machine

/-- `PHASE`: where the sequencer's loop stands (10_state.md R39). -/
inductive Phase where
  /-- At a frame boundary: before the first frame, between frames, during the end-of-frame sleep. -/
  | idle
  /-- In the step loop. -/
  | stepping
  /-- After `Rasterize`, before `RaiseNMI`. -/
  | rendered
  /-- The loop exited because RUN = 0. -/
  | stopped
  /-- After the host event SeqFault (60_exceptions.md R217). -/
  | faulted
  deriving DecidableEq, Repr

/-- The cartridge record of the last successful load (40_cartridge.md R109). -/
structure Cart where
  prg : List Byte
  chr : List Byte
  prgSize : Nat
  chrSize : Nat
  mapper : Byte
  deriving DecidableEq, Repr

/-- Why a load fails, in the order the checks are made (60_exceptions.md R226). -/
inductive FormatError where
  | badMagic
  | truncatedHeader
  | truncatedProgram
  | truncatedPattern
  deriving DecidableEq, Repr

/-- Why a restore fails (60_exceptions.md R226). -/
inductive SnapshotError where
  | corrupt
  deriving DecidableEq, Repr

/-- A snapshot record as the host hands it in or gets it out (46_snapshot.md R180). Its fields are numbers and lists
of any size, so that an ill-formed one can be written down (R184). `fb` lists the entries row after row (log 31). -/
structure Snapshot where
  a : Nat
  x : Nat
  y : Nat
  sp : Nat
  p : Nat
  pc : Nat
  mem : List Nat
  pat : List Nat
  nt : List Nat
  pal : List Nat
  fb : List Nat
  buttons : List Nat
  cyc : Nat
  pend : Nat
  deriving DecidableEq, Repr

/-- What the host hands to `Restore`: a snapshot record, or bytes that do not decode to one (46_snapshot.md R184). -/
inductive RestoreInput where
  | record (snap : Snapshot)
  | undecodable
  deriving DecidableEq, Repr

/-- A host action: a call of a port (60_exceptions.md R228), or the event SeqFault (R217). -/
inductive HostAction where
  | load (bytes : List Byte)
  | setKey (button : Nat) (pressed : Bool)
  | capture
  | restore (input : RestoreInput)
  | readFb
  | rasterize
  | start
  | stop
  | setSpeed (speed : Speed)
  | seqFault
  deriving DecidableEq, Repr

/-- What a host call gives back (60_exceptions.md R228, column "host gets back"). -/
inductive HostReply where
  /-- A successful load or restore. -/
  | ok
  /-- A port that gives nothing back. -/
  | nothing
  | formatError (reason : FormatError)
  | snapshotError (reason : SnapshotError)
  | snapshot (snap : Snapshot)
  /-- A copy of the framebuffer; entry (y, x) has index 256 y + x (60_exceptions.md R229). -/
  | frame (fb : Memory 6)
  deriving DecidableEq, Repr

/-- Whose action comes next in the one total order (20_memory.md R70). -/
inductive Turn where
  | seq
  | host (action : HostAction)
  deriving DecidableEq, Repr

/-- The state: R20's components, the parameters (R42), and the model's own schedule and record of replies. -/
structure State where
  /-- The parameters of 00_scope.md R7; no action writes them (10_state.md R42; log 1). -/
  cfg : Config
  /-- `A` (R21). -/
  a : Byte
  /-- `X` (R22). -/
  x : Byte
  /-- `Y` (R22). -/
  y : Byte
  /-- `S`, the stack pointer (R24). -/
  sp : Byte
  /-- `P`, the status register (R25). -/
  p : Byte
  /-- `PC` (R23). -/
  pc : Addr
  /-- `M`, 65536 bytes (R31). -/
  mem : Memory 8
  /-- `PAT`, 16384 bytes (R32). -/
  pat : Memory 8
  /-- `NT`, 8192 bytes (R33). -/
  nt : Memory 8
  /-- `PAL`, 32 bytes (R34). -/
  pal : Memory 8
  /-- `FB`; entry (y, x) has index 256 y + x (R35). -/
  fb : Memory 6
  /-- `IN` (R36). -/
  buttons : Vector Bool 8
  /-- `PEND` (R37). -/
  pend : Bool
  /-- `CYC` (R38). -/
  cyc : Nat
  /-- `ACC` (R39). -/
  acc : Nat
  /-- `RUN` (R39). -/
  run : Bool
  /-- `PHASE` (R39). -/
  phase : Phase
  /-- The loop's local variable `budget`, rounded up (60_exceptions.md R210, R211; log 21). -/
  budget : Nat
  /-- `SPEED`, which the host may change (R42). -/
  speed : Speed
  /-- `CART` (R40). -/
  cart : Option Cart
  /-- `LOADED` (R40). -/
  loaded : Bool
  /-- The MODEL's own: the turns to come; when it is empty every turn is SEQ's (20_memory.md R70; log 24). -/
  turns : List Turn
  /-- The MODEL's own: what the host calls gave back, newest first (log 25). -/
  replies : List HostReply
  deriving DecidableEq, Repr

/-- Why a meaning stops with a fault. -/
inductive Fault where
  /-- `raise DecodeFault` (00_scope.md R9). No meaning raises it, since every address wraps and every operand is legal;
  a step that met it would swallow it and run the fallback (41_cpu_step.md R125, log 32). Safe: it never ends a step. -/
  | decodeFault
  deriving DecidableEq, Repr

/-- Why an action is refused. -/
inductive Refusal where
  /-- Raised by an arm of `exec` for an instruction without a meaning: none is left. Safe. -/
  | notModelled (mnemonic : String)
  /-- Raised by `SetKey` with an index outside 0..7, which "the model refuses" (45_input_latch.md R172, D22). Safe. -/
  | buttonOutOfRange (button : Nat)
  deriving DecidableEq, Repr

/-- The state `PowerOnReset` creates at power-on, and only then, for a configuration and a speed
(70_reset_and_hazards.md R240, 10_state.md R41). -/
def State.powerOn (c : Config) (speed : Speed) : State where
  cfg := c
  a := c.resetA
  x := c.resetX
  y := c.resetY
  sp := c.resetS
  p := c.resetP
  pc := startPc c []
  mem := []
  pat := []
  nt := []
  pal := []
  fb := []
  buttons := noButtons
  pend := false
  cyc := 0
  acc := 0
  run := false
  phase := .idle
  budget := 0
  speed := speed
  cart := none
  loaded := false
  turns := []
  replies := []

/-- The machine right after power-on reset, with the values R7 takes. -/
def State.reset : State := State.powerOn Config.taken Config.initialSpeed

end Sys2Proof.Machine
end

