-- ==== Sys2Proof/Machine/Ops.lean ====
section
/-! DEFINITION. The named operations over registers and memory (00_scope.md R9). Every read and write of M by the CPU
goes through `memRead` and `memWrite`. -/

namespace Sys2Proof.Machine

/-- `A <- v`. -/
def State.setA (v : Byte) (s : State) : State := { s with a := v }

/-- `P <- v`. -/
def State.setP (v : Byte) (s : State) : State := { s with p := v }

/-- `S <- v`. -/
def State.setSp (v : Byte) (s : State) : State := { s with sp := v }

/-- `PC <- v`. -/
def State.setPc (v : Addr) (s : State) : State := { s with pc := v }

/-- `M <- m`, the whole array. -/
def State.setMem (m : Memory 8) (s : State) : State := { s with mem := m }

/-- `PEND <- b`. -/
def State.setPend (b : Bool) (s : State) : State := { s with pend := b }

/-- `PHASE <- ph`. -/
def State.setPhase (ph : Phase) (s : State) : State := { s with phase := ph }

/-- `FB <- f`, the whole array. -/
def State.setFb (f : Memory 6) (s : State) : State := { s with fb := f }

/-- `CYC <- CYC + c` (41_cpu_step.md R120, R126). -/
def State.charge (c : Nat) (s : State) : State := { s with cyc := s.cyc + c }

/-- `ACC <- ACC + c` (60_exceptions.md R210). -/
def State.addAcc (c : Nat) (s : State) : State := { s with acc := s.acc + c }

/-- The turns to come. -/
def State.setTurns (ts : List Turn) (s : State) : State := { s with turns := ts }

/-- A host call gave this back. -/
def State.addReply (r : HostReply) (s : State) : State := { s with replies := r :: s.replies }

/-- `MemRead(a, 1)`: byte `a` of M, without side effect (00_scope.md R9, 20_memory.md R56). -/
def memRead (s : State) (a : Addr) : Byte := Memory.read s.mem a.toNat

/-- `MemRead(a, 2)`: the little-endian word, its high byte from `(a+1) mod 65536` (00_scope.md R9, 20_memory.md R58). -/
def memRead16 (s : State) (a : Addr) : Addr := word16 (memRead s (a + 1)) (memRead s a)

/-- The address is in a cartridge window, 0x8000-0xFFFF (20_memory.md R52). -/
def inWindow (a : Addr) : Bool := decide (win0 ≤ a.toNat)

/-- A CPU write to this address is stored (20_memory.md R54). -/
def storable (c : Config) (a : Addr) : Bool := c.prgWindowWritable || !inWindow a

/-- The byte of M at an address set, whatever PRG_WINDOW_WRITABLE says (45_input_latch.md R171). -/
def pokeByte (a : Addr) (v : Byte) (s : State) : State := s.setMem (Memory.write s.mem a.toNat v)

/-- Bytes of M set one after another from an address on, mod 65536. -/
def placeBytes (a : Addr) (bytes : List Byte) (s : State) : State :=
  match bytes with
  | [] => s
  | v :: rest => placeBytes (a + 1) rest (pokeByte a v s)

/-- `MemWrite(a, 1, v)`: stores the byte, but not in a window that is not writable (20_memory.md R54, R57). -/
def memWrite (a : Addr) (v : Byte) (s : State) : State :=
  if storable s.cfg a then pokeByte a v s else s

/-- The address a push writes, `STACK_BASE + S` (10_state.md R24). -/
def stackAddr (c : Config) (sp : Byte) : Addr := c.stackBase + sp.setWidth 16

/-- `Push(v)`: store at `STACK_BASE + S`, then decrement S mod 256 (10_state.md R24). -/
def push (v : Byte) (s : State) : State := (memWrite (stackAddr s.cfg s.sp) v s).setSp (s.sp - 1)

/-- PC advanced by `n` bytes, mod 65536 (10_state.md R23). -/
def advancePc (n : Nat) (s : State) : State := s.setPc (s.pc + BitVec.ofNat 16 n)

/-- The three bytes from PC on, mod 65536: as many as the longest instruction has (20_memory.md R61, 30_encoding.md R80). -/
def fetchBytes (s : State) : List Byte := [memRead s s.pc, memRead s (s.pc + 1), memRead s (s.pc + 2)]

/-- The whole effect on PC and CYC of an instruction that runs on to the next one: its length and its base cost
(41_cpu_step.md R121, R122, R126). -/
def complete (h : Handler) (s : State) : State := (advancePc h.length s).charge h.cost

/-- Interrupt service, the only trap entry (60_exceptions.md R205): PC-high, PC-low and the status as it was are
pushed, PC comes from the NMI vector as M then holds it, I is set, PEND cleared, 7 cycles charged. There is no return
from it (R207): no operation of this model undoes it. -/
def interruptService (s : State) : State :=
  let saved := push (nmiPushedP s.cfg s.p) (push (loByte s.pc) (push (hiByte s.pc) s))
  (((saved.setPc (memRead16 saved nmiVector)).setP (setI s.cfg s.p)).setPend false).charge interruptCost

/-- `RaiseNMI`: `PEND <- 1`, whatever PEND, P or the program are (60_exceptions.md R214). -/
def raiseNmi (s : State) : State := s.setPend true

end Sys2Proof.Machine
end

