-- ==== Sys2Proof/Machine/Cartridge.lean ====
section
/-! DEFINITION. The load port: image parsing, the bank selector of mapper 0 and the commit (40_cartridge.md R100 to
R112, 20_memory.md R53 to R55). -/

namespace Sys2Proof.Machine

/-- Header byte `i`. -/
def headerByte (bytes : List Byte) (i : Nat) : Byte := bytes.getD i 0

/-- The first four bytes are MAGIC; fewer than four are not (40_cartridge.md R101). -/
def magicOk (c : Config) (bytes : List Byte) : Bool :=
  bytes.take 4 == [c.magic0, c.magic1, c.magic2, c.magic3]

/-- `prg_size` (40_cartridge.md R103). -/
def prgSizeOf (bytes : List Byte) : Nat := (headerByte bytes 4).toNat * prgBank

/-- `chr_size` (40_cartridge.md R104). -/
def chrSizeOf (bytes : List Byte) : Nat := (headerByte bytes 5).toNat * chrBank

/-- The program region (40_cartridge.md R106). -/
def prgRegion (c : Config) (bytes : List Byte) : List Byte :=
  (bytes.drop c.headerLen).take (prgSizeOf bytes)

/-- The bytes of the pattern region that are present (40_cartridge.md R107). -/
def chrPresent (c : Config) (bytes : List Byte) : List Byte :=
  (bytes.drop (c.headerLen + prgSizeOf bytes)).take (chrSizeOf bytes)

/-- The pattern bytes a load takes: the region, its missing bytes 0x00 (40_cartridge.md R107), or 8192 bytes of 0x00
when the header declares no pattern bank (R108). -/
def chrTaken (c : Config) (bytes : List Byte) : List Byte :=
  if chrSizeOf bytes = 0 then List.replicate chrBank 0
  else chrPresent c bytes ++ List.replicate (chrSizeOf bytes - (chrPresent c bytes).length) 0

/-- The cartridge record of an image that passes every check (40_cartridge.md R109). -/
def cartOf (c : Config) (bytes : List Byte) : Cart where
  prg := prgRegion c bytes
  chr := chrTaken c bytes
  prgSize := prgSizeOf bytes
  chrSize := chrSizeOf bytes
  mapper := mapperId c (headerByte bytes 6) (headerByte bytes 7)

/-- The pattern region is cut short (40_cartridge.md R107). -/
def patternCut (c : Config) (bytes : List Byte) : Bool :=
  decide (bytes.length < c.headerLen + prgSizeOf bytes + chrSizeOf bytes)

/-- The checks in order, the first that fails deciding the reason (40_cartridge.md R100, R101, R102, R106, R107). -/
def parseCart (c : Config) (bytes : List Byte) : Except FormatError Cart :=
  if !magicOk c bytes then .error .badMagic
  else if bytes.length < 8 then .error .truncatedHeader
  else if bytes.length < c.headerLen + prgSizeOf bytes then .error .truncatedProgram
  else if c.chrTruncation == .formatError && patternCut c bytes then .error .truncatedPattern
  else .ok (cartOf c bytes)

/-- Program bank `k` of the program bytes. -/
def bank (prg : List Byte) (k : Nat) : List Byte := (prg.drop (k * prgBank)).take prgBank

/-- `MapBanks(prg, n)` over an all-zero M (20_memory.md R53): no bank maps nothing, one bank stands in both windows,
of two or more the first two stand in the two windows (log 11). -/
def mapBanks (prg : List Byte) (n : Nat) : Memory 8 :=
  if n = 0 then []
  else if n = 1 then Memory.ofList win0 (bank prg 0) ++ Memory.ofList win1 (bank prg 0)
  else Memory.ofList win0 (bank prg 0) ++ Memory.ofList win1 (bank prg 1)

/-- M after a load: mapped for mapper 0, all zero for any other mapper (20_memory.md R53, R55). -/
def loadedMem (cart : Cart) : Memory 8 :=
  if cart.mapper = 0 then mapBanks cart.prg (cart.prgSize / prgBank) else []

/-- What `PowerOnReset` does both at power-on and in a load (70_reset_and_hazards.md R240). -/
def powerOnReset (s : State) : State :=
  { s with
    a := s.cfg.resetA, x := s.cfg.resetX, y := s.cfg.resetY, sp := s.cfg.resetS, p := s.cfg.resetP,
    mem := [], pat := [], nt := [], pal := [], fb := [], buttons := noButtons, pend := false, cyc := 0,
    pc := startPc s.cfg [] }

/-- `Load-commit` (40_cartridge.md R110): everything but ACC, RUN, PHASE (and SPEED, the frame's budget: log 20, 21). -/
def loadCommit (cart : Cart) (s : State) : State :=
  { powerOnReset s with
    pat := Memory.ofList 0 (cart.chr.take patSize), mem := loadedMem cart,
    pc := startPc s.cfg (loadedMem cart), cart := some cart, loaded := true }

/-- `load(bytes)` (40_cartridge.md R100): commits, or fails and changes nothing (R111). -/
def load (bytes : List Byte) (s : State) : State × HostReply :=
  match parseCart s.cfg bytes with
  | .ok cart => (loadCommit cart s, .ok)
  | .error reason => (s, .formatError reason)

end Sys2Proof.Machine
end

