-- ==== Sys2Proof/Machine/Input.lean ====
section
/-! DEFINITION. The input port (45_input_latch.md). -/

namespace Sys2Proof.Machine

/-- The byte that mirrors a button's value (45_input_latch.md R171). -/
def inputByte (c : Config) (pressed : Bool) : Byte := if pressed then c.inputOn else c.inputOff

/-- `IN[b] <- pressed` (45_input_latch.md R170). -/
def setButton (b : Fin 8) (pressed : Bool) (s : State) : State :=
  { s with buttons := s.buttons.set b pressed }

/-- `SetKey(b, pressed)`: the button's bit, and for the primary button the byte at INPUT_ADDR, whatever
PRG_WINDOW_WRITABLE says (45_input_latch.md R170, R171). -/
def setKey (b : Fin 8) (pressed : Bool) (s : State) : State :=
  if b = s.cfg.primaryButton then pokeByte s.cfg.inputAddr (inputByte s.cfg pressed) (setButton b pressed s)
  else setButton b pressed s

end Sys2Proof.Machine
end

