-- ==== Sys2Proof/Machine/Picture.lean ====
section
/-! DEFINITION. The tile-pattern rasterizer and the framebuffer writer (44_picture_unit.md). -/

namespace Sys2Proof.Machine

/-- The tile index of the pixel in row `y` and column `x` (44_picture_unit.md R152, R153). -/
def tileIndex (nt : Memory 8) (y x : Nat) : Nat :=
  (Memory.read nt ((32 * (y / 8) + x / 8) % ntSize)).toNat

/-- The low-plane byte of row `r` of tile `t` (44_picture_unit.md R154). -/
def lowPlane (pat : Memory 8) (t r : Nat) : Byte := Memory.read pat ((16 * t + r) % patSize)

/-- The high-plane byte of row `r` of tile `t` (44_picture_unit.md R154). -/
def highPlane (pat : Memory 8) (t r : Nat) : Byte := Memory.read pat ((16 * t + 8 + r) % patSize)

/-- Column `c` of two plane bytes as a pixel value 0..3: bit `7 - c` of each, the low plane's bit 0 of the value
(44_picture_unit.md R155). -/
def pixelValue (lo hi : Byte) (c : Nat) : Nat := (lo.getLsbD (7 - c)).toNat + 2 * (hi.getLsbD (7 - c)).toNat

/-- `PaletteRead(p)` (44_picture_unit.md R156, 20_memory.md R63). -/
def paletteRead (s : State) (p : Nat) : Byte :=
  match s.cfg.paletteSource with
  | .patternSpace => Memory.read s.pat (paletteBase + p)
  | .paletteMemory => Memory.read s.pal ((paletteBase + p) % palSize)

/-- The pixel value in row `y` and column `x` (44_picture_unit.md R152 to R155). -/
def pixelAt (s : State) (y x : Nat) : Nat :=
  pixelValue (lowPlane s.pat (tileIndex s.nt y x) (y % 8)) (highPlane s.pat (tileIndex s.nt y x) (y % 8)) (x % 8)

/-- The entry the framebuffer writer stores in row `y` and column `x`: the palette byte `& 0x3F`
(44_picture_unit.md R156, R157). -/
def colourAt (s : State) (y x : Nat) : Pixel := (paletteRead s (pixelAt s y x)).setWidth 6

/-- The index of entry `FB[y][x]` in the framebuffer array. -/
def fbIndex (y x : Nat) : Nat := fbWidth * y + x

/-- The whole framebuffer after a rasterize: entry `i` is the one in row `i / 256` and column `i mod 256`
(44_picture_unit.md R150, R157). Its 61440 entries are not to be unfolded in a proof: `frameOf_read` reads one. -/
@[irreducible] def frameOf (s : State) : Memory 6 :=
  Memory.tabulate (fun i => colourAt s (i / fbWidth) (i % fbWidth)) 0 fbSize

/-- `Rasterize()`: every entry of FB is computed anew and nothing else changes (44_picture_unit.md R150, R151). -/
def rasterize (s : State) : State := s.setFb (frameOf s)

end Sys2Proof.Machine
end

