-- ==== Sys2Proof/Machine/Snapshot.lean ====
section
/-! DEFINITION. The snapshot port (46_snapshot.md). -/

namespace Sys2Proof.Machine

/-- An array of exactly `size` values, each below `bound` (46_snapshot.md R184). -/
def arrayOk (size bound : Nat) (l : List Nat) : Bool := l.length == size && l.all (fun v => decide (v < bound))

/-- `WellFormed(s)`: every field has the size and range of R180 (46_snapshot.md R184). -/
def Snapshot.wf (n : Snapshot) : Bool :=
  decide (n.a < 256) && decide (n.x < 256) && decide (n.y < 256) && decide (n.sp < 256) && decide (n.p < 256) &&
  decide (n.pc < 65536) &&
  arrayOk memSize 256 n.mem && arrayOk patSize 256 n.pat && arrayOk ntSize 256 n.nt && arrayOk palSize 256 n.pal &&
  arrayOk fbSize 64 n.fb && arrayOk 8 2 n.buttons && decide (n.pend < 2)

/-- The values of an array as numbers, one after another. -/
def arrayOut {w : Nat} (size : Nat) (m : Memory w) : List Nat := (Memory.toList size m).map BitVec.toNat

/-- An array from its values as numbers. -/
def arrayIn (w : Nat) (l : List Nat) : Memory w := Memory.ofList 0 (l.map (BitVec.ofNat w))

/-- Eight bits from numbers 0 or 1. -/
def buttonsIn (l : List Nat) : Vector Bool 8 :=
  #v[l.getD 0 0 == 1, l.getD 1 0 == 1, l.getD 2 0 == 1, l.getD 3 0 == 1,
     l.getD 4 0 == 1, l.getD 5 0 == 1, l.getD 6 0 == 1, l.getD 7 0 == 1]

/-- `Capture()`: the current value of every component of R180 (46_snapshot.md R181). -/
def capture (s : State) : Snapshot where
  a := s.a.toNat
  x := s.x.toNat
  y := s.y.toNat
  sp := s.sp.toNat
  p := s.p.toNat
  pc := s.pc.toNat
  mem := arrayOut memSize s.mem
  pat := arrayOut patSize s.pat
  nt := arrayOut ntSize s.nt
  pal := arrayOut palSize s.pal
  fb := arrayOut fbSize s.fb
  buttons := s.buttons.toList.map Bool.toNat
  cyc := s.cyc
  pend := s.pend.toNat

/-- What a restore of a well-formed snapshot writes; CART, LOADED, ACC, RUN, PHASE and the configuration stay
(46_snapshot.md R183, R186). -/
def restoreCommit (n : Snapshot) (s : State) : State :=
  { s with
    a := BitVec.ofNat 8 n.a, x := BitVec.ofNat 8 n.x, y := BitVec.ofNat 8 n.y, sp := BitVec.ofNat 8 n.sp,
    p := BitVec.ofNat 8 n.p, pc := BitVec.ofNat 16 n.pc,
    mem := arrayIn 8 n.mem, pat := arrayIn 8 n.pat, nt := arrayIn 8 n.nt, pal := arrayIn 8 n.pal,
    fb := arrayIn 6 n.fb, buttons := buttonsIn n.buttons, cyc := n.cyc, pend := n.pend == 1 }

/-- `Restore(s)`: fully succeeds, or fails and leaves live state untouched (46_snapshot.md R183, R184). -/
def restore (input : RestoreInput) (s : State) : State × HostReply :=
  match input with
  | .record n => if n.wf then (restoreCommit n s, .ok) else (s, .snapshotError .corrupt)
  | .undecodable => (s, .snapshotError .corrupt)

end Sys2Proof.Machine
end

