-- ==== Sys2Proof/Machine/Ports.lean ====
section
/-! DEFINITION. The host interface (60_exceptions.md R228): each port call is one atomic action with a reply. -/

namespace Sys2Proof.Machine

/-- `RUN <- b` (60_exceptions.md R216). -/
def setRun (b : Bool) (s : State) : State := { s with run := b }

/-- `SPEED <- q`, read from the next frame's start on (60_exceptions.md R211, R228). -/
def setSpeed (q : Speed) (s : State) : State := { s with speed := q }

/-- A port call: the state after it and what the host gets back (60_exceptions.md R228), or the refusal of R172. -/
def hostAction (action : HostAction) (s : State) : Host.Outcome (State × HostReply) Fault Refusal :=
  match action with
  | .load bytes => .next (load bytes s)
  | .setKey b pressed =>
    if h : b < 8 then .next (setKey ⟨b, h⟩ pressed s, .nothing) else .refused (.buttonOutOfRange b)
  | .capture => .next (s, .snapshot (capture s))
  | .restore input => .next (restore input s)
  | .readFb => .next (s, .frame s.fb)
  | .rasterize => .next (rasterize s, .nothing)
  | .start => .next (setRun true s, .nothing)
  | .stop => .next (setRun false s, .nothing)
  | .setSpeed q => .next (setSpeed q s, .nothing)
  | .seqFault => .next (s.setPhase .faulted, .nothing)

/-- A host turn: the action, and its reply recorded (log 25). -/
def hostTurn (action : HostAction) (s : State) : Host.Outcome State Fault Refusal :=
  match hostAction action s with
  | .next (t, r) => .next (t.addReply r)
  | .fault f => .fault f
  | .refused r => .refused r

end Sys2Proof.Machine
end

