-- ==== Sys2Proof/Machine/Operands.lean ====
section
/-! DEFINITION. Every operand form: the immediate byte and the absolute address (42_cpu_load_store.md, 30_encoding.md
R84, R85). No form is indexed or indirect and none changes a register. -/

namespace Sys2Proof.Machine

/-- The immediate operand of the instruction at PC: the byte after the opcode (30_encoding.md R84). -/
def immOperand (s : State) : Byte := memRead s (s.pc + 1)

/-- The absolute operand of the instruction at PC: the little-endian word after the opcode (30_encoding.md R85). -/
def absOperand (s : State) : Addr := memRead16 s (s.pc + 1)

/-- The byte an absolute operand names, for a load. -/
def loadAbs (addr16 : Addr) (s : State) : Byte := memRead s addr16

/-- A byte stored where an absolute operand names. -/
def storeAbs (addr16 : Addr) (v : Byte) (s : State) : State := memWrite addr16 v s

/-- `A <- v; SetNZ(v)`, the shared end of both loads (42_cpu_load_store.md R131, R132). -/
def loadA (v : Byte) (s : State) : State := (s.setA v).setP (setNZ s.cfg v s.p)

end Sys2Proof.Machine
end

