-- ==== Sys2Proof/Machine/Control.lean ====
section
/-! DEFINITION. The meaning of the only control transfer (43_cpu_control.md R140, R141). -/

namespace Sys2Proof.Machine

/-- JMP abs: PC becomes the operand exactly (43_cpu_control.md R140). -/
def execJmpAbs (addr16 : Addr) (s : State) : Host.Outcome State Fault Refusal :=
  .next ((s.setPc addr16).charge (Handler.cost .jmpAbs))

end Sys2Proof.Machine
end

