-- ==== Sys2Proof/Machine/Fallback.lean ====
section
/-! DEFINITION. The fallback entry (41_cpu_step.md R123): nothing beyond the fetch. -/

namespace Sys2Proof.Machine

/-- The effect of the fallback: PC + 1 and 2 cycles (41_cpu_step.md R123). -/
def fallback (s : State) : State := complete .unimpl s

/-- UNIMPL, for every opcode byte without a row (41_cpu_step.md R123). -/
def execUnimpl (_opcode : Byte) (s : State) : Host.Outcome State Fault Refusal := .next (fallback s)

end Sys2Proof.Machine
end

