-- ==== Sys2Proof/Machine/LoadStore.lean ====
section
/-! DEFINITION. The meanings of the loads and the store (42_cpu_load_store.md). A meaning is the whole effect of a
`Step()` that executes the instruction: the fetch's advance of PC, the handler, and the cost added to CYC
(41_cpu_step.md R120, R121, R126; log 42). -/

namespace Sys2Proof.Machine

/-- LDA # (42_cpu_load_store.md R131). -/
def execLdaImm (imm8 : Byte) (s : State) : Host.Outcome State Fault Refusal :=
  .next (complete .ldaImm (loadA imm8 s))

/-- LDA abs (42_cpu_load_store.md R132). -/
def execLdaAbs (addr16 : Addr) (s : State) : Host.Outcome State Fault Refusal :=
  .next (complete .ldaAbs (loadA (loadAbs addr16 s) s))

/-- STA abs (42_cpu_load_store.md R133). -/
def execStaAbs (addr16 : Addr) (s : State) : Host.Outcome State Fault Refusal :=
  .next (complete .staAbs (storeAbs addr16 s.a s))

end Sys2Proof.Machine
end

