-- ==== Sys2Proof/Machine/Sequencer.lean ====
section
/-! DEFINITION. The CPU step (41_cpu_step.md R120 to R125) and the frame sequencer's actions (60_exceptions.md R210 to
R217): the frame clock with its budget, the rasterize trigger and the per-frame NMI. -/

namespace Sys2Proof.Machine

/-- What a step makes of a handler's outcome: a DecodeFault becomes the fallback from the state at the step's start,
at the fallback's cost (41_cpu_step.md R125). A step's answer is the state after it and the cost it returns. -/
def swallowFault (start : State) (cost : Nat) (o : Host.Outcome State Fault Refusal) :
    Host.Outcome (State × Nat) Fault Refusal :=
  match o with
  | .next t => .next (t, cost)
  | .fault .decodeFault => .next (fallback start, Handler.cost .unimpl)
  | .refused r => .refused r

/-- `NormalFetch`: the bytes at PC decoded through the dispatch table, and the handler run (41_cpu_step.md R121). -/
def normalFetch (s : State) : Host.Outcome (State × Nat) Fault Refusal :=
  match decode s.cfg (fetchBytes s) with
  | .ok (i, _) => swallowFault s i.cost (exec i s)
  | .error _ => .next (fallback s, Handler.cost .unimpl)

/-- `Step()`: interrupt service if PEND = 1 at its start, and nothing else; one instruction if not
(41_cpu_step.md R120, 60_exceptions.md R204). CYC is charged in the meanings and in `interruptService`. -/
def cpuStep (s : State) : Host.Outcome (State × Nat) Fault Refusal :=
  if s.pend then .next (interruptService s, interruptCost) else normalFetch s

/-- `ACC <- ACC + Step()` (60_exceptions.md R210). -/
def countStep (s : State) : Host.Outcome State Fault Refusal :=
  match cpuStep s with
  | .next (t, c) => .next (t.addAcc c)
  | .fault f => .fault f
  | .refused r => .refused r

/-- The least natural number that is not below `BASE_CYCLES_PER_FRAME × SPEED`: `ACC < budget` is the same for it and
for the rational (60_exceptions.md R211; log 21). -/
def frameBudget (c : Config) (q : Speed) : Nat := (c.baseCyclesPerFrame * q.num + (q.den - 1)) / q.den

/-- The start of a frame: SPEED is read, ACC cleared, the step loop entered (60_exceptions.md R210, R211, R212). -/
def beginFrame (s : State) : State :=
  { s with budget := frameBudget s.cfg s.speed, acc := 0, phase := .stepping }

/-- The only place RUN is looked at: a frame starts, or the loop is stopped (60_exceptions.md R210, R216). -/
def frameBoundary (s : State) : State := if s.run then beginFrame s else s.setPhase .stopped

/-- One action of SEQ, by where its loop stands (60_exceptions.md R210). Stopped with RUN = 0, or faulted, SEQ takes
no action and the state is kept (R216, R217). -/
def seqTurn (s : State) : Host.Outcome State Fault Refusal :=
  match s.phase with
  | .idle => .next (frameBoundary s)
  | .stepping => if s.acc < s.budget then countStep s else .next ((rasterize s).setPhase .rendered)
  | .rendered => .next ((raiseNmi s).setPhase .idle)
  | .stopped => .next (frameBoundary s)
  | .faulted => .next s

end Sys2Proof.Machine
end

