-- ==== Sys2Proof/Machine/Step.lean ====
section
/-! DEFINITION. One step: one action of the one total order of SEQ's and HOST's actions (20_memory.md R70, R10;
60_exceptions.md R200). -/

namespace Sys2Proof.Machine

/-- One atomic action. The next turn of the schedule says whose it is; past its end every turn is SEQ's (log 24). -/
def step (s : State) : Host.Outcome State Fault Refusal :=
  match s.turns with
  | [] => seqTurn s
  | .seq :: rest => seqTurn (s.setTurns rest)
  | .host action :: rest => hostTurn action (s.setTurns rest)

/-- `s` with an instruction's bytes at PC and the sequencer about to run them: the next turn is SEQ's, in the step
loop, with cycles left and no interrupt pending (log 35). -/
def State.withFetchWord (s : State) (nbits w : Nat) : State :=
  { placeBytes s.pc (tableWordBytes nbits w) s with
    turns := .seq :: s.turns, phase := .stepping, pend := false,
    budget := if s.acc < s.budget then s.budget else s.acc + 1 }

end Sys2Proof.Machine
end

