-- ==== Sys2Proof/Safety.lean ====
section
/-! DEFINITION. The invariant of the machine and what counts as a safe action, in the terms the statements use. -/

namespace Sys2Proof.Machine

/-- The cartridge record is what some successful load builds (40_cartridge.md R103, R104, R107, R108, R109). -/
structure Cart.Ok (cart : Cart) : Prop where
  prg_length : cart.prg.length = cart.prgSize
  prg_banks : cart.prgSize % prgBank = 0
  chr_length : cart.chr.length = if cart.chrSize = 0 then chrBank else cart.chrSize
  chr_banks : cart.chrSize % chrBank = 0

/-- The invariant every action keeps: the configuration is well-formed, every array is in canonical form and of its
size, LOADED says whether there is a record and the record is one a load builds, and the frame's count is at most 6
past its budget (60_exceptions.md R212). -/
structure State.Inv (s : State) : Prop where
  cfg_wf : s.cfg.wf = true
  mem_wf : Memory.wf memSize s.mem = true
  pat_wf : Memory.wf patSize s.pat = true
  nt_wf : Memory.wf ntSize s.nt = true
  pal_wf : Memory.wf palSize s.pal = true
  fb_wf : Memory.wf fbSize s.fb = true
  loaded_cart : s.loaded = s.cart.isSome
  cart_ok : ∀ cart, s.cart = some cart → cart.Ok
  acc_bound : s.acc ≤ s.budget + 6

/-- The next turn is SEQ's (20_memory.md R70). -/
def State.SeqNext (s : State) : Prop := s.turns = [] ∨ ∃ rest, s.turns = .seq :: rest

/-- The next turn is the host's, with this action (20_memory.md R70). -/
def State.HostNext (s : State) (action : HostAction) : Prop := ∃ rest, s.turns = .host action :: rest

/-- The state once the next turn is taken off the schedule: what the action of that turn starts from. -/
def State.turnTaken (s : State) : State := s.setTurns s.turns.tail

/-- SEQ is about to do a `Step`: the turn is its own, and its loop is in the step loop with cycles left
(60_exceptions.md R210). -/
structure State.AboutToStep (s : State) : Prop where
  seq_turn : s.SeqNext
  stepping : s.phase = .stepping
  cycles_left : s.acc < s.budget

/-- `s` with X, Y, the picture memories, the framebuffer and the buttons of another state (41_cpu_step.md R127). -/
def State.withUnreachable (s other : State) : State :=
  { s with
    x := other.x, y := other.y, pat := other.pat, nt := other.nt, pal := other.pal, fb := other.fb,
    buttons := other.buttons }

/-- The size and range of every field of a snapshot (46_snapshot.md R180, R184): six bytes of registers and a 16-bit PC,
exactly 65536, 16384, 8192 and 32 bytes, 240 × 256 entries each in 0..63, 8 entries each 0 or 1, a bit PEND. -/
structure Snapshot.HasShape (n : Snapshot) : Prop where
  registers : n.a < 256 ∧ n.x < 256 ∧ n.y < 256 ∧ n.sp < 256 ∧ n.p < 256 ∧ n.pc < 65536
  sizes : n.mem.length = 65536 ∧ n.pat.length = 16384 ∧ n.nt.length = 8192 ∧ n.pal.length = 32
  bytes : ∀ v ∈ n.mem ++ n.pat ++ n.nt ++ n.pal, v < 256
  frame : n.fb.length = 240 * 256 ∧ ∀ v ∈ n.fb, v < 64
  buttons : n.buttons.length = 8 ∧ ∀ v ∈ n.buttons, v = 0 ∨ v = 1
  pend : n.pend = 0 ∨ n.pend = 1

end Sys2Proof.Machine
end

