-- ==== Sys2Proof/Certificates/Slice0/Obligations.lean ====
section
/-! DEFINITION. What is stated of the machine. A statement about every state is about every configuration, since the
parameters of 00_scope.md R7 stand in the state (log 1): OPC_LDA_IMM is `s.cfg.opcLdaImm`, STACK_BASE `s.cfg.stackBase`. -/

open Sys2Proof Sys2Proof.Machine

/-! ### Encoding -/

/-- Words written out from 30_encoding.md R81 to R83 and R86 (the opcode bytes are D1's: log 2) decode to the
instructions they stand for. -/
def Obligations.WrittenWordsDecode : Prop :=
  decodeTableWord 16 0x80A9 = some (.ldaImm 0x80) ∧
  decodeTableWord 24 0x0234AD = some (.ldaAbs 0x0234) ∧
  decodeTableWord 24 0x12348D = some (.staAbs 0x1234) ∧
  decodeTableWord 24 0xABCD4C = some (.jmpAbs 0xABCD) ∧
  decodeTableWord 8 0xFF = some (.unimpl 0xFF) ∧
  decodeTableWord 8 0xEA = some (.unimpl 0xEA)

/-- No bit of an encoding is dropped: decoding the encoding of any well-formed instruction, whatever follows it, gives
the instruction and what follows (30_encoding.md R81 to R86). -/
def Obligations.DecodeOfEncodeIsTheInstruction : Prop :=
  ∀ (c : Config) (i : Instr) (rest : List Byte), c.wf = true → i.wf c = true →
    decode c (encode c i ++ rest) = .ok (i, rest)

/-- The other direction: whatever decodes is well-formed, and its encoding is the bytes it was read from. -/
def Obligations.EncodeOfDecodedIsTheBytes : Prop :=
  ∀ (c : Config) (bytes rest : List Byte) (i : Instr), decode c bytes = .ok (i, rest) →
    i.wf c = true ∧ encode c i ++ rest = bytes

/-- 30_encoding.md R80: an instruction has 1, 2 or 3 bytes, as many as its opcode byte alone says. -/
def Obligations.OpcodeAloneDecidesTheLength : Prop :=
  ∀ (c : Config) (op : Byte) (more : List Byte), c.wf = true → 2 ≤ more.length →
    ∃ i rest, decode c (op :: more) = .ok (i, rest) ∧
      more.length + 1 = rest.length +
        (if op = c.opcLdaImm then 2
         else if op = c.opcLdaAbs ∨ op = c.opcStaAbs ∨ op = c.opcJmpAbs then 3
         else 1)

/-- 30_encoding.md R87: the entries of the dispatch table, and no action changes it. -/
def Obligations.DispatchTableEntries : Prop :=
  (∀ c : Config, c.wf = true →
    tableEntry c c.opcLdaImm = (.ldaImm, 2) ∧ tableEntry c c.opcLdaAbs = (.ldaAbs, 4) ∧
    tableEntry c c.opcStaAbs = (.staAbs, 4) ∧ tableEntry c c.opcJmpAbs = (.jmpAbs, 3) ∧
    ∀ op, op ≠ c.opcLdaImm → op ≠ c.opcLdaAbs → op ≠ c.opcStaAbs → op ≠ c.opcJmpAbs →
      tableEntry c op = (.unimpl, 2)) ∧
  ∀ s t : State, step s = .next t → ∀ op, tableEntry t.cfg op = tableEntry s.cfg op

/-! ### Steps and instructions -/

/-- A step of SEQ in the step loop with no NMI pending is `exec` of the instruction that the bytes at PC decode to,
with its cost added to ACC (41_cpu_step.md R120, R121; 60_exceptions.md R210). That steps are actions of their own is
D27 (log 24), that `exec` is the whole step log 42. -/
def Obligations.StepRunsTheDecodedInstruction : Prop :=
  ∀ (s : State) (i : Instr) (rest : List Byte), s.AboutToStep → s.pend = false →
    decode s.cfg (fetchBytes s) = .ok (i, rest) →
    ∃ t, exec i s.turnTaken = .next t ∧ step s = .next { t with acc := s.acc + i.cost }

/-- A step that begins with PEND = 1 does interrupt service and fetches nothing (41_cpu_step.md R120, 60_exceptions.md
R204). ACC counts the 7 cycles (60_exceptions.md R205, R210; D27: log 24). -/
def Obligations.PendingNmiIsServicedInsteadOfAFetch : Prop :=
  ∀ s : State, s.AboutToStep → s.pend = true →
    step s = .next { interruptService s.turnTaken with acc := s.acc + 7 }

/-- 42_cpu_load_store.md R131: LDA # completes with A the operand byte, Z and N its flags, PC two further, 2 cycles,
and changes nothing else; fetched, it is the byte OPC_LDA_IMM and its operand the byte after. -/
def Obligations.LdaImmediateLoadsItsOperand : Prop :=
  ∀ (s : State) (v : Byte), s.cfg.wf = true →
    ∃ p, exec (.ldaImm v) s = .next { s with a := v, p := p, pc := s.pc + 2, cyc := s.cyc + 2 } ∧
      p.getLsbD s.cfg.bitZ = decide (v = 0) ∧ p.getLsbD s.cfg.bitN = v.getLsbD 7 ∧
      (∀ j : Fin 8, j ≠ s.cfg.bitZ → j ≠ s.cfg.bitN → p.getLsbD j = s.p.getLsbD j) ∧
      (memRead s s.pc = s.cfg.opcLdaImm → memRead s (s.pc + 1) = v →
        normalFetch s = .next ({ s with a := v, p := p, pc := s.pc + 2, cyc := s.cyc + 2 }, 2))

/-- 42_cpu_load_store.md R132: LDA abs completes with A the byte at its address, Z and N its flags, PC three further,
4 cycles, and changes nothing else; fetched, it is OPC_LDA_ABS, then the address, low byte first. -/
def Obligations.LdaAbsoluteLoadsFromMemory : Prop :=
  ∀ (s : State) (ea : Addr), s.cfg.wf = true →
    ∃ p, exec (.ldaAbs ea) s = .next { s with a := memRead s ea, p := p, pc := s.pc + 3, cyc := s.cyc + 4 } ∧
      p.getLsbD s.cfg.bitZ = decide (memRead s ea = 0) ∧ p.getLsbD s.cfg.bitN = (memRead s ea).getLsbD 7 ∧
      (∀ j : Fin 8, j ≠ s.cfg.bitZ → j ≠ s.cfg.bitN → p.getLsbD j = s.p.getLsbD j) ∧
      (memRead s s.pc = s.cfg.opcLdaAbs →
        (memRead s (s.pc + 2)).toNat * 256 + (memRead s (s.pc + 1)).toNat = ea.toNat →
        normalFetch s = .next ({ s with a := memRead s ea, p := p, pc := s.pc + 3, cyc := s.cyc + 4 }, 4))

/-- 42_cpu_load_store.md R133: STA abs completes with the byte at its address A, PC three further, 4 cycles, no flag and
no other byte changed; fetched, it is OPC_STA_ABS, then the address, low byte first. That a window which is not writable
keeps its byte is the spec's decision D8 (20_memory.md R54; log 9). -/
def Obligations.StaAbsoluteStoresTheAccumulator : Prop :=
  ∀ (s : State) (ea : Addr), s.cfg.wf = true → Memory.wf memSize s.mem = true →
    ∃ m, exec (.staAbs ea) s = .next { s with mem := m, pc := s.pc + 3, cyc := s.cyc + 4 } ∧
      Memory.read m ea.toNat =
        (if s.cfg.prgWindowWritable = true ∨ ea.toNat < 0x8000 then s.a else memRead s ea) ∧
      (∀ b : Addr, b ≠ ea → Memory.read m b.toNat = memRead s b) ∧
      (memRead s s.pc = s.cfg.opcStaAbs →
        (memRead s (s.pc + 2)).toNat * 256 + (memRead s (s.pc + 1)).toNat = ea.toNat →
        normalFetch s = .next ({ s with mem := m, pc := s.pc + 3, cyc := s.cyc + 4 }, 4))

/-- 43_cpu_control.md R140: JMP abs completes with PC its operand exactly, 3 cycles, nothing else changed; fetched, it
is OPC_JMP_ABS, then the target, low byte first. -/
def Obligations.JmpAbsoluteSetsThePc : Prop :=
  ∀ (s : State) (target : Addr), s.cfg.wf = true →
    exec (.jmpAbs target) s = .next { s with pc := target, cyc := s.cyc + 3 } ∧
    (memRead s s.pc = s.cfg.opcJmpAbs →
      (memRead s (s.pc + 2)).toNat * 256 + (memRead s (s.pc + 1)).toNat = target.toNat →
      normalFetch s = .next ({ s with pc := target, cyc := s.cyc + 3 }, 3))

/-- 41_cpu_step.md R123: every opcode byte without a row completes with PC one further and 2 cycles, and changes
nothing else. -/
def Obligations.FallbackAdvancesThePcByOne : Prop :=
  ∀ (s : State) (op : Byte),
    exec (.unimpl op) s = .next { s with pc := s.pc + 1, cyc := s.cyc + 2 } ∧
    (memRead s s.pc = op → op ≠ s.cfg.opcLdaImm → op ≠ s.cfg.opcLdaAbs → op ≠ s.cfg.opcStaAbs →
      op ≠ s.cfg.opcJmpAbs →
      normalFetch s = .next ({ s with pc := s.pc + 1, cyc := s.cyc + 2 }, 2))

/-- The frame of the instructions that store nothing (LDA #, LDA abs, JMP abs, UNIMPL): S, X, Y and every byte of
memory are unchanged; JMP abs and UNIMPL keep A and P; the loads keep every bit of P but Z and N; no other state
changes but PC and CYC. -/
def Obligations.NonStoringInstructionsFrame : Prop :=
  ∀ (i : Instr) (s t : State), (∀ ea, i ≠ .staAbs ea) → exec i s = .next t →
    t.sp = s.sp ∧ t.x = s.x ∧ t.y = s.y ∧ (∀ b : Addr, memRead t b = memRead s b) ∧
    ((∃ target, i = .jmpAbs target) ∨ (∃ op, i = .unimpl op) → t.a = s.a ∧ t.p = s.p) ∧
    (∀ j : Fin 8, j ≠ s.cfg.bitZ → j ≠ s.cfg.bitN → t.p.getLsbD j = s.p.getLsbD j) ∧
    t = { s with a := t.a, p := t.p, pc := t.pc, cyc := t.cyc }

/-- The frame of the store (STA abs): no register and no flag changes, and every byte but the one at its address reads
as before. That a store reaches no picture memory and no button is 20_memory.md R57 (D37: log 36). -/
def Obligations.StoreFrame : Prop :=
  ∀ (ea : Addr) (s t : State), Memory.wf memSize s.mem = true → exec (.staAbs ea) s = .next t →
    t.a = s.a ∧ t.x = s.x ∧ t.y = s.y ∧ t.sp = s.sp ∧ t.p = s.p ∧
    (∀ b : Addr, b ≠ ea → memRead t b = memRead s b) ∧
    t = { s with mem := t.mem, pc := t.pc, cyc := t.cyc }

/-- 42_cpu_load_store.md R130: after a load Z says whether the loaded byte is 0 and N is its bit 7, the other six bits
of P kept; no other instruction and no interrupt service changes Z or N. That the two bits differ is the check of log
40. -/
def Obligations.OnlyLoadsUpdateZeroAndNegative : Prop :=
  ∀ s : State, s.cfg.wf = true →
    (∀ (i : Instr) (v : Byte) (t : State),
      (i = .ldaImm v ∨ ∃ ea, i = .ldaAbs ea ∧ memRead s ea = v) → exec i s = .next t →
      ∀ j : Fin 8, t.p.getLsbD j =
        if j = s.cfg.bitZ then decide (v = 0) else if j = s.cfg.bitN then v.getLsbD 7 else s.p.getLsbD j) ∧
    (∀ (i : Instr) (t : State), (∀ v, i ≠ .ldaImm v) → (∀ ea, i ≠ .ldaAbs ea) → exec i s = .next t → t.p = s.p) ∧
    (interruptService s).p.getLsbD s.cfg.bitZ = s.p.getLsbD s.cfg.bitZ ∧
    (interruptService s).p.getLsbD s.cfg.bitN = s.p.getLsbD s.cfg.bitN

/-- 41_cpu_step.md R126: every step adds its cost to CYC and returns it; the costs are 2, 4, 4, 3, 2 and 7. -/
def Obligations.EveryStepAddsItsCostToCyc : Prop :=
  ∀ s : State, ∃ t c, cpuStep s = .next (t, c) ∧ t.cyc = s.cyc + c ∧ 2 ≤ c ∧
    (s.pend = true → c = 7) ∧
    (s.pend = false → ∀ i rest, decode s.cfg (fetchBytes s) = .ok (i, rest) →
      c = match i with
        | .ldaImm _ => 2
        | .ldaAbs _ => 4
        | .staAbs _ => 4
        | .jmpAbs _ => 3
        | .unimpl _ => 2)

/-- 41_cpu_step.md R127: no step reads or writes X, Y, PAT, NT, PAL, FB or IN: with other values there it does the
same to everything else, returns the same cost, and leaves those values as they are. -/
def Obligations.CpuStepIgnoresXYPictureAndButtons : Prop :=
  ∀ (s other t : State) (c : Nat), cpuStep s = .next (t, c) →
    t = t.withUnreachable s ∧ cpuStep (s.withUnreachable other) = .next (t.withUnreachable other, c)

/-- 70_reset_and_hazards.md R251: a byte a STA stores into code is what the very next fetch reads, wherever it falls
in the next instruction. (Whether a window stores it is D8: log 9.) -/
def Obligations.StoredCodeIsFetchedNext : Prop :=
  ∀ (s t : State) (ea : Addr) (k : Fin 3), Memory.wf memSize s.mem = true →
    s.cfg.prgWindowWritable = true ∨ ea.toNat < 0x8000 →
    exec (.staAbs ea) s = .next t → t.pc + BitVec.ofNat 16 k.val = ea →
    (fetchBytes t)[k.val]? = some s.a

/-- 41_cpu_step.md R125 (D41: log 32): a DecodeFault, were one raised, is the fallback from the state at the step's
start, 2 cycles, and goes no further. -/
def Obligations.DecodeFaultIsSwallowed : Prop :=
  ∀ (s : State) (cost : Nat),
    swallowFault s cost (.fault .decodeFault) = .next ({ s with pc := s.pc + 1, cyc := s.cyc + 2 }, 2)

/-- No action faults (60_exceptions.md R208), and the only one refused is a SetKey with an index outside 0..7
(45_input_latch.md R172). The refusal is D22 (log 18), the swallowed DecodeFault D41 (log 32). -/
def Obligations.OnlyOutOfRangeKeysAreRefused : Prop :=
  ∀ s : State, (∃ t, step s = .next t) ∨
    ∃ b pressed, s.HostNext (.setKey b pressed) ∧ 8 ≤ b ∧ step s = .refused (.buttonOutOfRange b)

/-- With M all zero and 0x00 no implemented opcode, every step without an NMI is a fallback (70_reset_and_hazards.md
R244). (An unloaded machine runs: D35, log 45; what M does not list reads as 0: D7, log 8.) -/
def Obligations.ZeroMemoryRunsFallbacks : Prop :=
  ∀ s : State, s.mem = [] → Instr.wf s.cfg (.unimpl 0x00) = true → s.pend = false →
    cpuStep s = .next ({ s with pc := s.pc + 1, cyc := s.cyc + 2 }, 2)

/-! ### Interrupt service -/

/-- 60_exceptions.md R205: PC-high, PC-low and NMI_PUSHED_P of the status are pushed at STACK_BASE + S, S - 1 and S - 2
(10_state.md R24; that a push lands there is D3, log 4, and which byte is pushed D4, log 5; that one in a window which is
not writable leaves M alone is D8, 20_memory.md R54, log 9), S goes down by 3 mod 256, PC is the word at
0xFFFA/0xFFFB, I is set, PEND cleared, 7 cycles; no other byte and no other state changes. -/
def Obligations.InterruptServicePushesPcAndStatus : Prop :=
  ∀ (s t : State) (at0 at1 at2 : Addr), Memory.wf memSize s.mem = true → t = interruptService s →
    at0 = s.cfg.stackBase + s.sp.setWidth 16 → at1 = s.cfg.stackBase + (s.sp - 1).setWidth 16 →
    at2 = s.cfg.stackBase + (s.sp - 2).setWidth 16 →
    (s.cfg.prgWindowWritable = true ∨ at0.toNat < 0x8000 → (memRead t at0).toNat = s.pc.toNat / 256) ∧
    (s.cfg.prgWindowWritable = true ∨ at1.toNat < 0x8000 → (memRead t at1).toNat = s.pc.toNat % 256) ∧
    (s.cfg.prgWindowWritable = true ∨ at2.toNat < 0x8000 → memRead t at2 = nmiPushedP s.cfg s.p) ∧
    (∀ b : Addr, (b ≠ at0 ∧ b ≠ at1 ∧ b ≠ at2) ∨ (s.cfg.prgWindowWritable = false ∧ 0x8000 ≤ b.toNat) →
      memRead t b = memRead s b) ∧
    t.pc.toNat = (memRead t 0xFFFB).toNat * 256 + (memRead t 0xFFFA).toNat ∧
    (∀ j : Fin 8, t.p.getLsbD j = if j = s.cfg.bitI then true else s.p.getLsbD j) ∧
    t = { s with
      mem := t.mem, sp := s.sp - 3, pc := t.pc, p := t.p, pend := false, cyc := s.cyc + 7 }

/-- The NMI cannot be masked: whatever P holds, a step with PEND = 1 is interrupt service (60_exceptions.md R203). -/
def Obligations.NmiIsTakenWhateverTheStatus : Prop :=
  ∀ (s : State) (p : Byte), s.pend = true →
    ∃ t, cpuStep { s with p := p } = .next (t, 7) ∧ t = interruptService { s with p := p } ∧ t.pend = false

/-- 60_exceptions.md R202: only RaiseNMI and a restore of a snapshot whose PEND is 1 set PEND; only interrupt service, a
load and a restore of a snapshot whose PEND is 0 clear it; raising it when it is 1 keeps it 1. -/
def Obligations.WhatSetsAndClearsPend : Prop :=
  ∀ s t : State, step s = .next t →
    (s.pend = false → t.pend = true →
      (s.SeqNext ∧ s.phase = .rendered) ∨ ∃ n, s.HostNext (.restore (.record n)) ∧ n.pend = 1) ∧
    (s.pend = true → t.pend = false →
      s.AboutToStep ∨ (∃ bytes, s.HostNext (.load bytes)) ∨
        ∃ n, s.HostNext (.restore (.record n)) ∧ n.pend = 0) ∧
    (s.pend = true → s.SeqNext → s.phase = .rendered → t.pend = true)

/-! ### The frame sequencer -/

/-- At a frame boundary with RUN = 1 a frame starts: ACC is 0 and the budget the least natural number that `ACC <
BASE_CYCLES_PER_FRAME × SPEED` compares the same with (60_exceptions.md R211; log 21); nothing else changes. That ACC
starts at 0 and carries no excess is R212, D25 (log 22). Both PHASE idle and PHASE stopped begin a frame when RUN = 1:
R216, D31 (log 30), as log 28 (DEDUCED) reads it; that the start is an action of its own is log 29 (DEDUCED). -/
def Obligations.FrameStartReadsTheSpeed : Prop :=
  ∀ s : State, s.phase = .idle ∨ s.phase = .stopped → s.run = true →
    ∃ b, seqTurn s = .next { s with budget := b, acc := 0, phase := .stepping } ∧
      ∀ n : Nat, n < b ↔ n * s.speed.den < s.cfg.baseCyclesPerFrame * s.speed.num

/-- In the step loop with the budget reached, SEQ rasterizes exactly once; then it raises the NMI, whatever P, PEND
and the program are, and is at the frame boundary (60_exceptions.md R213, R214). That these are two actions, and PHASE
between them, is R210, D27 (log 24) and 10_state.md R39. -/
def Obligations.FrameEndRasterizesThenRaisesTheNmi : Prop :=
  ∀ s : State,
    (s.phase = .stepping → s.budget ≤ s.acc → seqTurn s = .next { rasterize s with phase := .rendered }) ∧
    (s.phase = .rendered → seqTurn s = .next { s with pend := true, phase := .idle })

/-- A frame with budget 0 runs no step, and still rasterizes and raises the NMI (60_exceptions.md R211). (R210, R212,
R213, R214; ACC at the start: D25, log 22; the budget: log 21; the start's own action: log 29.) -/
def Obligations.ZeroBudgetFrameRunsNoStep : Prop :=
  ∀ s : State, s.turns = [] → s.phase = .idle → s.run = true →
    s.cfg.baseCyclesPerFrame * s.speed.num = 0 →
    core.run 3 s = .next { rasterize s with budget := 0, acc := 0, pend := true, phase := .idle }

/-- With no host turn scheduled every frame ends: after at most half the budget's steps (rounded up) SEQ rasterizes,
so that FB is the picture of the state, and raises the NMI, and ACC is then at least the budget and at most 6 past it
(60_exceptions.md R212, R213, R214, R218). (The budget: log 21; ACC: D25, log 22; one action a step: log 24.) -/
def Obligations.EveryFrameEndsWithinHalfItsBudget : Prop :=
  ∀ s : State, s.turns = [] → s.phase = .stepping → s.acc = 0 →
    ∃ k t, k ≤ (s.budget + 1) / 2 ∧ core.run (k + 2) s = .next t ∧ t.phase = .idle ∧ t.pend = true ∧
      t.fb = (rasterize t).fb ∧
      t.budget = s.budget ∧ s.budget ≤ t.acc ∧ t.acc ≤ s.budget + 6 ∧
      t.cyc = s.cyc + t.acc

/-- A budget from 1 to 7 starves the program: a frame that starts with the NMI pending is one interrupt service, and
the NMI is pending again at its end (70_reset_and_hazards.md R252). (R210 to R214; the budget: log 21; ACC: D25, log
22; the start's own action: log 29.) -/
def Obligations.SmallBudgetFrameIsOneService : Prop :=
  ∀ s : State, s.turns = [] → s.phase = .idle → s.run = true → s.pend = true →
    0 < frameBudget s.cfg s.speed → frameBudget s.cfg s.speed ≤ 7 →
    core.run 4 s = .next { rasterize (interruptService s) with
      budget := frameBudget s.cfg s.speed, acc := 7, pend := true, phase := .idle }

/-- RUN is looked at only at a frame boundary: in the middle of a frame SEQ does the same whatever RUN is, and at a
boundary with RUN = 0 the loop stops and nothing else changes (60_exceptions.md R216, D31: log 30; a stopped loop
looking again: log 28, DEDUCED). -/
def Obligations.StopTakesEffectOnlyAtAFrameBoundary : Prop :=
  ∀ (s t : State) (b : Bool),
    (s.phase = .stepping ∨ s.phase = .rendered → seqTurn s = .next t →
      seqTurn { s with run := b } = .next { t with run := b }) ∧
    (s.phase = .idle ∨ s.phase = .stopped → s.run = false → seqTurn s = .next { s with phase := .stopped })

/-- After SeqFault SEQ takes no further action and the state is kept; no host action starts it again (60_exceptions.md
R217, D29: log 27). -/
def Obligations.FaultedSequencerTakesNoAction : Prop :=
  ∀ s t : State, s.phase = .faulted → step s = .next t →
    t.phase = .faulted ∧ (s.SeqNext → t = s.turnTaken)

/-! ### The rasterizer -/

/-- The entry in row `y` and column `x` after a rasterize (44_picture_unit.md R152 to R157): the tile named by NT, its
two plane bytes, bit 7 - x mod 8 of each, the colour byte at PALETTE_BASE + the pixel value, its low 6 bits. None of
the wraps the rules write applies. The tile address, plane order and bit order are D18 and D19 (log 15), the palette
source D20 (log 16). -/
def Obligations.RasterizedEntryIsTheTilePixel : Prop :=
  ∀ (s : State) (y x t p : Nat) (lo hi e : Byte), y < 240 → x < 256 →
    t = (Memory.read s.nt (32 * (y / 8) + x / 8)).toNat →
    lo = Memory.read s.pat (16 * t + y % 8) → hi = Memory.read s.pat (16 * t + 8 + y % 8) →
    p = (if lo.getLsbD (7 - x % 8) then 1 else 0) + 2 * (if hi.getLsbD (7 - x % 8) then 1 else 0) →
    e = (match s.cfg.paletteSource with
      | .patternSpace => Memory.read s.pat (0x3F00 + p)
      | .paletteMemory => Memory.read s.pal p) →
    (Memory.read (rasterize s).fb (fbIndex y x)).toNat = e.toNat % 64

/-- 44_picture_unit.md R150, R151, R158: rasterize writes FB only; FB after it depends on NT, PAT, the palette source
and, only with `palette_memory`, on PAL, not on FB before; a second rasterize changes nothing. (R158 is the spec's own
inference; PALETTE_SOURCE is D20: log 16.) -/
def Obligations.RasterizeDependsOnlyOnPictureMemory : Prop :=
  ∀ s s' : State,
    rasterize s = { s with fb := (rasterize s).fb } ∧ rasterize (rasterize s) = rasterize s ∧
    (s.nt = s'.nt → s.pat = s'.pat → s.cfg.paletteSource = s'.cfg.paletteSource →
      s.cfg.paletteSource = .patternSpace ∨ s.pal = s'.pal → (rasterize s).fb = (rasterize s').fb)

/-- The worked example of 44_picture_unit.md R161 (vector R-1), in every state with that picture memory. It rests on
D18, D19 (log 15) and D20 (log 16). -/
def Obligations.RasterizerExample : Prop :=
  ∀ s : State, s.cfg.paletteSource = .patternSpace → s.nt = [(0, 0x01)] →
    s.pat = [(0x10, 0xA0), (0x18, 0xC0), (0x3F00, 0x0F), (0x3F01, 0x16), (0x3F02, 0x2A), (0x3F03, 0xFF)] →
    (List.range 8).map (Memory.read (rasterize s).fb) = [0x3F, 0x2A, 0x16, 0x0F, 0x0F, 0x0F, 0x0F, 0x0F] ∧
    ∀ i, 8 ≤ i → i < 61440 → Memory.read (rasterize s).fb i = 0x0F

/-! ### The cartridge -/

/-- 40_cartridge.md R100 to R107, 60_exceptions.md R226: the checks in order decide the reason, a failed load changes
nothing (R111), and an image that passes them all loads. The short pattern region is D13 (log 12), that a failure
keeps everything D16 (log 13), the short header D17 (log 14); MAGIC and HEADER_LEN are parameters (log 10). -/
def Obligations.LoadChecksInOrder : Prop :=
  ∀ (s : State) (bytes : List Byte) (prgEnd chrEnd : Nat),
    prgEnd = s.cfg.headerLen + (bytes.getD 4 0).toNat * 16384 →
    chrEnd = prgEnd + (bytes.getD 5 0).toNat * 8192 →
    (bytes.take 4 ≠ [s.cfg.magic0, s.cfg.magic1, s.cfg.magic2, s.cfg.magic3] →
      load bytes s = (s, .formatError .badMagic)) ∧
    (bytes.take 4 = [s.cfg.magic0, s.cfg.magic1, s.cfg.magic2, s.cfg.magic3] →
      (bytes.length < 8 → load bytes s = (s, .formatError .truncatedHeader)) ∧
      (8 ≤ bytes.length → bytes.length < prgEnd → load bytes s = (s, .formatError .truncatedProgram)) ∧
      (8 ≤ bytes.length → prgEnd ≤ bytes.length → bytes.length < chrEnd → s.cfg.chrTruncation = .formatError →
        load bytes s = (s, .formatError .truncatedPattern)) ∧
      (8 ≤ bytes.length → prgEnd ≤ bytes.length → chrEnd ≤ bytes.length ∨ s.cfg.chrTruncation = .zeroFill →
        (load bytes s).2 = .ok))

/-- 40_cartridge.md R110, 10_state.md R41: what a successful load leaves in every register (D5, D6, D7: log 6, log 7,
log 8; `fixed(v)` at a load: log 41) and in the five fields of the cartridge record (R103, R104, R105, R107, R108,
R109; missing pattern bytes 0x00: D13, log 12), and what it does not touch (ACC, RUN and PHASE: D14, log 11; that
SPEED and the frame's budget are among this is DEDUCED: log 20, log 21). -/
def Obligations.LoadResetsTheCore : Prop :=
  ∀ (s t : State) (bytes : List Byte), load bytes s = (t, .ok) →
    t.a = s.cfg.resetA ∧ t.x = s.cfg.resetX ∧ t.y = s.cfg.resetY ∧ t.sp = s.cfg.resetS ∧ t.p = s.cfg.resetP ∧
    t.nt = [] ∧ t.pal = [] ∧ t.fb = [] ∧ (∀ b : Fin 8, t.buttons[b] = false) ∧ t.pend = false ∧ t.cyc = 0 ∧
    t.loaded = true ∧
    (∃ cart, t.cart = some cart ∧ cart.prgSize = (bytes.getD 4 0).toNat * 16384 ∧
      cart.chrSize = (bytes.getD 5 0).toNat * 8192 ∧ cart.prg = (bytes.drop s.cfg.headerLen).take cart.prgSize ∧
      cart.mapper = mapperId s.cfg (bytes.getD 6 0) (bytes.getD 7 0) ∧
      cart.chr.length = (if cart.chrSize = 0 then 8192 else cart.chrSize) ∧
      ∀ i, cart.chr.getD i 0 =
        if i < cart.chrSize then bytes.getD (s.cfg.headerLen + cart.prgSize + i) 0 else 0) ∧
    (match s.cfg.resetPcMode with
      | .vector => t.pc.toNat = (memRead t 0xFFFD).toNat * 256 + (memRead t 0xFFFC).toNat
      | .fixed v => t.pc = v) ∧
    t.acc = s.acc ∧ t.run = s.run ∧ t.phase = s.phase ∧ t.budget = s.budget ∧ t.speed = s.speed ∧ t.cfg = s.cfg

/-- 20_memory.md R53 (more than two banks and none: D12, log 11; a copy: D8, log 9): with mapper 0, one bank stands in
both windows, of two or more the first two stand one in each; below the windows, and everywhere with no bank, M is the
zero that the load's reset leaves (40_cartridge.md R110, 70_reset_and_hazards.md R240; D7: log 8). -/
def Obligations.MapperZeroMapsTheBanks : Prop :=
  ∀ (s t : State) (bytes : List Byte) (n i : Nat), load bytes s = (t, .ok) →
    mapperId s.cfg (bytes.getD 6 0) (bytes.getD 7 0) = 0 → n = (bytes.getD 4 0).toNat →
    (i < 0x8000 → Memory.read t.mem i = 0) ∧
    (n = 0 → Memory.read t.mem i = 0) ∧
    (i < 16384 → 1 ≤ n → Memory.read t.mem (0x8000 + i) = bytes.getD (s.cfg.headerLen + i) 0) ∧
    (i < 16384 → n = 1 → Memory.read t.mem (0xC000 + i) = bytes.getD (s.cfg.headerLen + i) 0) ∧
    (i < 16384 → 2 ≤ n → Memory.read t.mem (0xC000 + i) = bytes.getD (s.cfg.headerLen + 16384 + i) 0)

/-- 20_memory.md R55: with any other mapper id a load whose bytes are all there succeeds and the program window is
never mapped: every byte of M, both vectors too, is the 0x00 that the load's reset leaves (D7: log 8; that such a load
resets and loads at all is D15, log 11). -/
def Obligations.OtherMappersMapNothing : Prop :=
  ∀ (s : State) (bytes : List Byte), mapperId s.cfg (bytes.getD 6 0) (bytes.getD 7 0) ≠ 0 →
    bytes.take 4 = [s.cfg.magic0, s.cfg.magic1, s.cfg.magic2, s.cfg.magic3] → 8 ≤ bytes.length →
    s.cfg.headerLen + (bytes.getD 4 0).toNat * 16384 ≤ bytes.length →
    s.cfg.chrTruncation = .zeroFill ∨
      s.cfg.headerLen + (bytes.getD 4 0).toNat * 16384 + (bytes.getD 5 0).toNat * 8192 ≤ bytes.length →
    (load bytes s).2 = .ok ∧ (load bytes s).1.loaded = true ∧ ∀ a : Addr, memRead (load bytes s).1 a = 0

/-- 40_cartridge.md R107, R108, R110: PAT after a load holds the pattern region from its start, missing bytes 0x00,
and 0x00 past it. (Where the bytes go is D14, log 11; the missing ones D13, log 12; the rest D7, log 8.) -/
def Obligations.LoadFillsThePatternMemory : Prop :=
  ∀ (s t : State) (bytes : List Byte) (i : Nat), load bytes s = (t, .ok) → i < 16384 →
    Memory.read t.pat i =
      if i < (bytes.getD 5 0).toNat * 8192
      then bytes.getD (s.cfg.headerLen + (bytes.getD 4 0).toNat * 16384 + i) 0 else 0

/-- 70_reset_and_hazards.md R246: with one pattern bank or none, a rasterize right after the load leaves every entry
0. (The zero memory is D7, log 8, the pattern's place D14, log 11, `pattern_space` D20, log 16.) -/
def Obligations.OnePatternBankGivesABlankPicture : Prop :=
  ∀ (s t : State) (bytes : List Byte), load bytes s = (t, .ok) → (bytes.getD 5 0).toNat ≤ 1 →
    s.cfg.paletteSource = .patternSpace → (rasterize t).fb = []

/-- The cartridge record and LOADED change only at a successful load (40_cartridge.md R109, 10_state.md R40). (A
failed load keeps it: D16, log 13; a restore keeps it: D42, log 26.) -/
def Obligations.OnlyALoadChangesTheCartridge : Prop :=
  ∀ s t : State, step s = .next t → t.cart = s.cart ∧ t.loaded = s.loaded ∨
    ∃ bytes cart, s.HostNext (.load bytes) ∧ parseCart s.cfg bytes = .ok cart ∧
      t.cart = some cart ∧ t.loaded = true

/-! ### The input and snapshot ports, and the other ports -/

/-- 45_input_latch.md R170, R171: the named button's bit, and for the primary button the byte at INPUT_ADDR whatever
PRG_WINDOW_WRITABLE is (which address, button and bytes these are is D21: log 17); every other button, every other byte
and all other state stay. -/
def Obligations.SetKeySetsTheButtonAndMirrorsThePrimary : Prop :=
  ∀ (s : State) (b : Nat) (hb : b < 8) (pressed : Bool), Memory.wf memSize s.mem = true →
    ∃ t, hostAction (.setKey b pressed) s = .next (t, .nothing) ∧
      (∀ k : Fin 8, t.buttons[k] = if k.val = b then pressed else s.buttons[k]) ∧
      (∀ a : Addr, memRead t a =
        if b = s.cfg.primaryButton.val ∧ a = s.cfg.inputAddr
        then (if pressed then s.cfg.inputOn else s.cfg.inputOff) else memRead s a) ∧
      t = { s with buttons := t.buttons, mem := t.mem }

/-- 45_input_latch.md R172 (D22: log 18): a key outside 0..7 is refused by name. -/
def Obligations.KeyOutsideTheEightIsRefused : Prop :=
  ∀ (s : State) (b : Nat) (pressed : Bool), 8 ≤ b →
    hostAction (.setKey b pressed) s = .refused (.buttonOutOfRange b)

/-- 46_snapshot.md R185, R186: a restore of a capture returns every component of R180 to its value at the capture,
whatever came between, and leaves CART, LOADED, ACC, RUN, PHASE, the frame's budget and SPEED as they are. (What a
restore leaves is D28 and D42: log 26; SPEED and the budget: log 20, log 21; FB's order: log 31.) -/
def Obligations.RestoreOfACaptureReturnsToIt : Prop :=
  ∀ s u : State, s.Inv →
    restore (.record (capture s)) u =
      ({ u with
        a := s.a, x := s.x, y := s.y, sp := s.sp, p := s.p, pc := s.pc, mem := s.mem, pat := s.pat, nt := s.nt,
        pal := s.pal, fb := s.fb, buttons := s.buttons, cyc := s.cyc, pend := s.pend }, .ok)

/-- 46_snapshot.md R184: a snapshot with any field of the wrong size or range is corrupt, and so are bytes that do not
decode; the restore fails and live state is untouched. Every other snapshot is restored (R183): each component takes the
value of its own field, entry (y, x) of FB the value 256 y + x of its list, and nothing else changes (D28, D36, D42:
log 26, log 31). -/
def Obligations.RestoreRejectsExactlyTheIllFormed : Prop :=
  ∀ (n : Snapshot) (s : State),
    (¬n.HasShape → restore (.record n) s = (s, .snapshotError .corrupt)) ∧
    (n.HasShape → ∃ t, restore (.record n) s = (t, .ok) ∧
      t.a.toNat = n.a ∧ t.x.toNat = n.x ∧ t.y.toNat = n.y ∧ t.sp.toNat = n.sp ∧ t.p.toNat = n.p ∧ t.pc.toNat = n.pc ∧
      (∀ i, (Memory.read t.mem i).toNat = n.mem.getD i 0 ∧ (Memory.read t.pat i).toNat = n.pat.getD i 0 ∧
        (Memory.read t.nt i).toNat = n.nt.getD i 0 ∧ (Memory.read t.pal i).toNat = n.pal.getD i 0 ∧
        (Memory.read t.fb i).toNat = n.fb.getD i 0) ∧
      (∀ b : Fin 8, t.buttons[b].toNat = n.buttons.getD b 0) ∧ t.cyc = n.cyc ∧ t.pend.toNat = n.pend ∧
      t = { s with
        a := t.a, x := t.x, y := t.y, sp := t.sp, p := t.p, pc := t.pc, mem := t.mem, pat := t.pat, nt := t.nt,
        pal := t.pal, fb := t.fb, buttons := t.buttons, cyc := t.cyc, pend := t.pend }) ∧
    restore .undecodable s = (s, .snapshotError .corrupt)

/-- What the host got back stays what it was: no later action changes a captured snapshot (46_snapshot.md R182). (The
record of replies is log 25.) -/
def Obligations.CapturedSnapshotsNeverChange : Prop :=
  ∀ s t : State, step s = .next t → ∃ newer, t.replies = newer ++ s.replies ∧ newer.length ≤ 1

/-- The ports that only read or set one field (60_exceptions.md R228, R229; 46_snapshot.md R181; SeqFault is R217's
optional event): what each writes and gives back. (RUN only: D31, log 30; SPEED: D24, log 20; the host's Rasterize:
D39, log 38; SeqFault: D29, log 27.) -/
def Obligations.PlainPortsDoWhatTheTableSays : Prop :=
  ∀ (s : State) (q : Speed),
    hostAction .capture s = .next (s, .snapshot (capture s)) ∧
    hostAction .readFb s = .next (s, .frame s.fb) ∧
    hostAction .rasterize s = .next ({ s with fb := (rasterize s).fb }, .nothing) ∧
    hostAction .start s = .next ({ s with run := true }, .nothing) ∧
    hostAction .stop s = .next ({ s with run := false }, .nothing) ∧
    hostAction (.setSpeed q) s = .next ({ s with speed := q }, .nothing) ∧
    hostAction .seqFault s = .next ({ s with phase := .faulted }, .nothing)

/-- A host turn does its action on the state with the turn taken off, and records the reply (20_memory.md R70; D27,
log 24; log 25). -/
def Obligations.HostTurnDoesTheActionAndRecordsItsReply : Prop :=
  ∀ (s u : State) (action : HostAction) (reply : HostReply), s.HostNext action →
    hostAction action s.turnTaken = .next (u, reply) → step s = .next { u with replies := reply :: u.replies }

/-! ### Whole-machine rules -/

/-- 10_state.md R22, R32, R33, R34, 20_memory.md R62: X, Y, PAT, NT and PAL change only at a load or a restore. That
no CPU path reaches PAT, NT and PAL is the spec's decision D37 (log 36, a choice). -/
def Obligations.OnlyLoadAndRestoreWriteXYAndPictureMemory : Prop :=
  ∀ s t : State, step s = .next t → (∀ bytes, ¬s.HostNext (.load bytes)) → (∀ input, ¬s.HostNext (.restore input)) →
    t.x = s.x ∧ t.y = s.y ∧ t.pat = s.pat ∧ t.nt = s.nt ∧ t.pal = s.pal

/-- 10_state.md R28, R29: but for a load or a restore, no action changes a bit of P other than N, Z and I, and none
clears I. (R29 is the spec's own inference; that the three bits differ is the check of log 40.) -/
def Obligations.OnlyNamedStatusBitsChange : Prop :=
  ∀ s t : State, s.cfg.wf = true → step s = .next t → (∀ bytes, ¬s.HostNext (.load bytes)) →
    (∀ input, ¬s.HostNext (.restore input)) →
    (∀ j : Fin 8, j ≠ s.cfg.bitN → j ≠ s.cfg.bitZ → j ≠ s.cfg.bitI → t.p.getLsbD j = s.p.getLsbD j) ∧
    (s.p.getLsbD s.cfg.bitI = true → t.p.getLsbD s.cfg.bitI = true)

/-- The framebuffer changes only by a rasterize, SEQ's or the host's, which leaves what `rasterize` computes, or by a
restore (10_state.md R35), or by a load, which blanks it (40_cartridge.md R110, 70_reset_and_hazards.md R240; D7: log
8). That no CPU write reaches it is D37 (log 36), that the host may rasterize D39 (log 38). -/
def Obligations.OnlyRasterizeLoadAndRestoreWriteTheFramebuffer : Prop :=
  ∀ s t : State, step s = .next t → t.fb ≠ s.fb →
    t.fb = (rasterize s).fb ∧
      (s.SeqNext ∧ s.phase = .stepping ∧ s.budget ≤ s.acc ∨ s.HostNext .rasterize) ∨
    (∃ input, s.HostNext (.restore input)) ∨ (∃ bytes, s.HostNext (.load bytes) ∧ t.fb = [])

/-- But for a load or a restore, M changes only in a CPU step and at a SetKey of the primary button, IN only at a
SetKey, CYC only in a CPU step, S only in interrupt service (10_state.md R24, R36, R38, 20_memory.md R57). (A store
and the pushes write M: 42_cpu_load_store.md R133, 60_exceptions.md R205; the primary key: 45_input_latch.md R171,
D21, log 17; that no CPU write reaches IN is D37, log 36; CYC is D26, log 23.) -/
def Obligations.WhatWritesMemoryButtonsCyclesAndStackPointer : Prop :=
  ∀ s t : State, step s = .next t → (∀ bytes, ¬s.HostNext (.load bytes)) → (∀ input, ¬s.HostNext (.restore input)) →
    (t.mem ≠ s.mem → s.AboutToStep ∨ ∃ pressed, s.HostNext (.setKey s.cfg.primaryButton.val pressed)) ∧
    (t.buttons ≠ s.buttons → ∃ b pressed, s.HostNext (.setKey b pressed)) ∧
    (t.cyc ≠ s.cyc → s.AboutToStep) ∧
    (t.sp ≠ s.sp → s.AboutToStep ∧ s.pend = true)

/-- 10_state.md R42: the parameters are fixed for a run; SPEED changes only by SetSpeed (log 1; that a load and a
restore keep it is DEDUCED: log 20). -/
def Obligations.TheConfigurationIsFixed : Prop :=
  ∀ s t : State, step s = .next t →
    t.cfg = s.cfg ∧ (t.speed = s.speed ∨ ∃ q, s.HostNext (.setSpeed q) ∧ t.speed = q)

/-- 10_state.md R41 with the values R7 takes (D5, D6, D7, D26, D31: log 6, log 7, log 8, log 23, log 30;
BASE_CYCLES_PER_FRAME, FRAME_PERIOD and SPEED are open, and nothing is said of them): the machine right after power-on
reset. -/
def Obligations.ResetValues : Prop :=
  State.reset.a = 0x00 ∧ State.reset.x = 0x00 ∧ State.reset.y = 0x00 ∧ State.reset.sp = 0xFD ∧
  State.reset.p = 0x24 ∧ State.reset.pc = 0x0000 ∧ (∀ a, memRead State.reset a = 0x00) ∧
  (∀ i, Memory.read State.reset.pat i = 0 ∧ Memory.read State.reset.nt i = 0 ∧ Memory.read State.reset.pal i = 0 ∧
    Memory.read State.reset.fb i = 0) ∧
  (∀ b : Fin 8, State.reset.buttons[b] = false) ∧ State.reset.pend = false ∧ State.reset.cyc = 0 ∧
  State.reset.acc = 0 ∧ State.reset.run = false ∧ State.reset.phase = .idle ∧ State.reset.cart = none ∧
  State.reset.loaded = false

/-- The invariant holds right after reset (the arrays' form: log 33; the configuration's check: log 40). -/
def Obligations.ResetMeetsTheInvariant : Prop := State.reset.Inv

/-- Every action keeps the invariant: a well-formed configuration, every array in canonical form and of its size
(10_state.md R31 to R35), LOADED telling whether there is a record and the record one a load builds (40_cartridge.md
R109), and ACC at most 6 past the frame's budget (60_exceptions.md R212). (The arrays' form is log 33, the
configuration's check log 40, ACC against the budget D25, log 21 and log 22.) -/
def Obligations.EveryActionKeepsTheInvariant : Prop :=
  ∀ s t : State, s.Inv → step s = .next t → t.Inv

/-! ### What a capture holds, and the values taken -/

/-- 46_snapshot.md R180, R181: a capture is well-formed and each of its fields holds its own component, FB row after row
(log 31); taking it changes nothing (PlainPortsDoWhatTheTableSays). -/
def Obligations.CaptureHoldsEveryComponent : Prop :=
  ∀ s : State, (capture s).HasShape ∧
    (capture s).a = s.a.toNat ∧ (capture s).x = s.x.toNat ∧ (capture s).y = s.y.toNat ∧ (capture s).sp = s.sp.toNat ∧
    (capture s).p = s.p.toNat ∧ (capture s).pc = s.pc.toNat ∧
    (∀ a : Addr, (capture s).mem[a.toNat]? = some (memRead s a).toNat) ∧
    (∀ i < 16384, (capture s).pat[i]? = some (Memory.read s.pat i).toNat) ∧
    (∀ i < 8192, (capture s).nt[i]? = some (Memory.read s.nt i).toNat) ∧
    (∀ i < 32, (capture s).pal[i]? = some (Memory.read s.pal i).toNat) ∧
    (∀ y < 240, ∀ x < 256, (capture s).fb[256 * y + x]? = some (Memory.read s.fb (fbIndex y x)).toNat) ∧
    (∀ b : Fin 8, (capture s).buttons[b.val]? = some s.buttons[b].toNat) ∧
    (capture s).cyc = s.cyc ∧ (capture s).pend = s.pend.toNat

/-- 00_scope.md R7, the column of values taken, for the parameters that no other statement gives, the two that are
functions among them (D2, D3, D4, D6, D8, D9, D10, D11, D13, D20, D21: log 3 to log 5, log 7, log 9, log 10, log 12,
log 16, log 17). -/
def Obligations.ParametersTakenAtReset : Prop :=
  (∀ p, nmiPushedP State.reset.cfg p = p) ∧
  (∀ b6 b7 : Byte, (mapperId State.reset.cfg b6 b7).toNat = b7.toNat / 16 * 16 + b6.toNat / 16) ∧
  State.reset.cfg.bitN = 7 ∧ State.reset.cfg.bitZ = 1 ∧ State.reset.cfg.bitI = 2 ∧
  State.reset.cfg.stackBase = 0x0100 ∧ State.reset.cfg.prgWindowWritable = true ∧ State.reset.cfg.headerLen = 16 ∧
  [State.reset.cfg.magic0, State.reset.cfg.magic1, State.reset.cfg.magic2, State.reset.cfg.magic3] =
    [0x4E, 0x45, 0x53, 0x1A] ∧
  State.reset.cfg.chrTruncation = .zeroFill ∧ State.reset.cfg.paletteSource = .patternSpace ∧
  State.reset.cfg.resetPcMode = .vector ∧ State.reset.cfg.inputAddr = 0x4016 ∧ State.reset.cfg.primaryButton = 0 ∧
  State.reset.cfg.inputOn = 0x01 ∧ State.reset.cfg.inputOff = 0x00
end

