-- ==== Sys2Proof/Laws/Memory.lean ====
section
/-! SUPPORT. The laws of arrays: what a read gives after each operation, and that each keeps the canonical form. -/

namespace Sys2Proof

variable {w : Nat}

@[simp] theorem Memory.read_nil (i : Nat) : Memory.read ([] : Memory w) i = 0#w := rfl

theorem Memory.read_cons (k : Nat) (v : BitVec w) (m : Memory w) (i : Nat) :
    Memory.read ((k, v) :: m) i = if k = i then v else Memory.read m i := rfl

@[simp] theorem Memory.wf_nil (size : Nat) : Memory.wf size ([] : Memory w) = true := rfl

theorem Memory.wfFrom_cons {size lo k : Nat} {v : BitVec w} {m : Memory w} :
    Memory.wfFrom size lo ((k, v) :: m) = true ↔
      lo ≤ k ∧ k < size ∧ v ≠ 0#w ∧ Memory.wfFrom size (k + 1) m = true := by
  simp only [Memory.wfFrom, Bool.and_eq_true, decide_eq_true_eq, and_assoc]
  rfl

/-- A canonical form from a later index on is one from an earlier index on. -/
theorem Memory.wfFrom_mono {size lo lo' : Nat} {m : Memory w} (h : lo' ≤ lo)
    (hm : Memory.wfFrom size lo m = true) : Memory.wfFrom size lo' m = true := by
  cases m with
  | nil => rfl
  | cons c m =>
    obtain ⟨k, v⟩ := c
    rw [Memory.wfFrom_cons] at hm ⊢
    exact ⟨by omega, hm.2⟩

/-- A canonical form in a smaller array is one in a larger array. -/
theorem Memory.wfFrom_size {size size' lo : Nat} {m : Memory w} (h : size ≤ size')
    (hm : Memory.wfFrom size lo m = true) : Memory.wfFrom size' lo m = true := by
  induction m generalizing lo with
  | nil => rfl
  | cons c m ih =>
    obtain ⟨k, v⟩ := c
    rw [Memory.wfFrom_cons] at hm ⊢
    exact ⟨hm.1, by omega, hm.2.2.1, ih hm.2.2.2⟩

/-- An index below the first listed one reads as 0. -/
theorem Memory.read_below {size lo i : Nat} {m : Memory w} (hm : Memory.wfFrom size lo m = true) (h : i < lo) :
    Memory.read m i = 0#w := by
  induction m generalizing lo with
  | nil => rfl
  | cons c m ih =>
    obtain ⟨k, v⟩ := c
    rw [Memory.wfFrom_cons] at hm
    rw [Memory.read_cons, if_neg (by omega)]
    exact ih hm.2.2.2 (by omega)

/-- An index past the array reads as 0. -/
theorem Memory.read_past {size lo i : Nat} {m : Memory w} (hm : Memory.wfFrom size lo m = true) (h : size ≤ i) :
    Memory.read m i = 0#w := by
  induction m generalizing lo with
  | nil => rfl
  | cons c m ih =>
    obtain ⟨k, v⟩ := c
    rw [Memory.wfFrom_cons] at hm
    rw [Memory.read_cons, if_neg (by omega)]
    exact ih hm.2.2.2

theorem Memory.consCell_wf {size lo k : Nat} {v : BitVec w} {m : Memory w} (hlo : lo ≤ k) (hk : k < size)
    (hm : Memory.wfFrom size (k + 1) m = true) : Memory.wfFrom size lo (Memory.consCell k v m) = true := by
  unfold Memory.consCell
  split
  · exact Memory.wfFrom_mono (by omega) hm
  · next hv => exact Memory.wfFrom_cons.mpr ⟨hlo, hk, hv, hm⟩

theorem Memory.read_consCell {size k i : Nat} {v : BitVec w} {m : Memory w}
    (hm : Memory.wfFrom size (k + 1) m = true) :
    Memory.read (Memory.consCell k v m) i = if k = i then v else Memory.read m i := by
  unfold Memory.consCell
  split
  · next hv =>
    split
    · next hk => subst hk; rw [Memory.read_below hm (by omega)]; exact hv.symm
    · rfl
  · exact Memory.read_cons ..

/-- Read after write, on an array in canonical form. -/
theorem Memory.read_write {size lo i j : Nat} {v : BitVec w} {m : Memory w}
    (hm : Memory.wfFrom size lo m = true) :
    Memory.read (Memory.write m i v) j = if i = j then v else Memory.read m j := by
  induction m generalizing lo with
  | nil => exact Memory.read_consCell (size := size) rfl
  | cons c m ih =>
    obtain ⟨k, u⟩ := c
    have hm' := Memory.wfFrom_cons.mp hm
    unfold Memory.write
    split
    · next hik =>
      exact Memory.read_consCell (size := size) (Memory.wfFrom_cons.mpr ⟨by omega, hm'.2⟩)
    · split
      · next hik =>
        subst hik
        rw [Memory.read_consCell hm'.2.2.2, Memory.read_cons]
        split <;> rfl
      · rw [Memory.read_cons, Memory.read_cons, ih hm'.2.2.2]
        split
        · next hkj => rw [if_neg (by omega)]
        · rfl

/-- A write inside the array keeps the canonical form. -/
theorem Memory.write_wfFrom {size lo i : Nat} {v : BitVec w} {m : Memory w} (hi : i < size) (hlo : lo ≤ i)
    (hm : Memory.wfFrom size lo m = true) : Memory.wfFrom size lo (Memory.write m i v) = true := by
  induction m generalizing lo with
  | nil => exact Memory.consCell_wf hlo hi rfl
  | cons c m ih =>
    obtain ⟨k, u⟩ := c
    have hm' := Memory.wfFrom_cons.mp hm
    unfold Memory.write
    split
    · exact Memory.consCell_wf hlo hi (Memory.wfFrom_cons.mpr ⟨by omega, hm'.2⟩)
    · split
      · next hik => subst hik; exact Memory.consCell_wf hlo hi hm'.2.2.2
      · exact Memory.wfFrom_cons.mpr ⟨hm'.1, hm'.2.1, hm'.2.2.1, ih (by omega) hm'.2.2.2⟩

theorem Memory.write_wf {size i : Nat} {v : BitVec w} {m : Memory w} (hi : i < size)
    (hm : Memory.wf size m = true) : Memory.wf size (Memory.write m i v) = true :=
  Memory.write_wfFrom hi (Nat.zero_le i) hm

theorem Memory.ofList_wfFrom {size base : Nat} {l : List (BitVec w)} (h : base + l.length ≤ size) :
    Memory.wfFrom size base (Memory.ofList base l) = true := by
  induction l generalizing base with
  | nil => rfl
  | cons v l ih =>
    simp only [List.length_cons] at h
    exact Memory.consCell_wf (Nat.le_refl _) (by omega) (ih (by omega))

theorem Memory.ofList_wf {size base : Nat} {l : List (BitVec w)} (h : base + l.length ≤ size) :
    Memory.wf size (Memory.ofList base l) = true :=
  Memory.wfFrom_mono (Nat.zero_le _) (Memory.ofList_wfFrom h)

theorem Memory.read_ofList {base i : Nat} {l : List (BitVec w)} :
    Memory.read (Memory.ofList base l) i = if base ≤ i then l.getD (i - base) 0#w else 0#w := by
  induction l generalizing base with
  | nil => simp [Memory.ofList]
  | cons v l ih =>
    rw [Memory.ofList, Memory.read_consCell (Memory.ofList_wfFrom (Nat.le_refl _)), ih]
    split
    · next hk => subst hk; simp
    · next hk =>
      by_cases hb : base ≤ i
      · obtain ⟨d, rfl⟩ : ∃ d, i = base + 1 + d := ⟨i - (base + 1), by omega⟩
        rw [if_pos (by omega), if_pos hb, show base + 1 + d - (base + 1) = d by omega,
          show base + 1 + d - base = d + 1 by omega, List.getD_cons_succ]
      · rw [if_neg (by omega), if_neg hb]

theorem Memory.tabulate_wfFrom {size base n : Nat} {f : Nat → BitVec w} (h : base + n ≤ size) :
    Memory.wfFrom size base (Memory.tabulate f base n) = true := by
  induction n generalizing base with
  | zero => rfl
  | succ n ih => exact Memory.consCell_wf (Nat.le_refl _) (by omega) (ih (by omega))

theorem Memory.tabulate_wf {n : Nat} {f : Nat → BitVec w} : Memory.wf n (Memory.tabulate f 0 n) = true :=
  Memory.tabulate_wfFrom (Nat.le_of_eq (Nat.zero_add n))

theorem Memory.read_tabulate {base n i : Nat} {f : Nat → BitVec w} :
    Memory.read (Memory.tabulate f base n) i = if base ≤ i ∧ i < base + n then f i else 0#w := by
  induction n generalizing base with
  | zero => rw [if_neg (by omega)]; rfl
  | succ n ih =>
    rw [Memory.tabulate, Memory.read_consCell (Memory.tabulate_wfFrom (Nat.le_refl _)), ih]
    split
    · next hk => subst hk; rw [if_pos (by omega)]
    · by_cases hb : base ≤ i ∧ i < base + (n + 1)
      · rw [if_pos (by omega), if_pos hb]
      · rw [if_neg (by omega), if_neg hb]

/-- Two arrays in canonical form that read the same everywhere are the same list. -/
theorem Memory.ext_of_read {size lo : Nat} {m m' : Memory w} (hm : Memory.wfFrom size lo m = true)
    (hm' : Memory.wfFrom size lo m' = true) (h : ∀ i, Memory.read m i = Memory.read m' i) : m = m' := by
  induction m generalizing lo m' with
  | nil =>
    cases m' with
    | nil => rfl
    | cons c m' =>
      obtain ⟨k, v⟩ := c
      have hc := Memory.wfFrom_cons.mp hm'
      have hk := h k
      rw [Memory.read_nil, Memory.read_cons, if_pos rfl] at hk
      exact absurd hk.symm hc.2.2.1
  | cons c m ih =>
    obtain ⟨k, v⟩ := c
    have hc := Memory.wfFrom_cons.mp hm
    cases m' with
    | nil =>
      have hk := h k
      rw [Memory.read_nil, Memory.read_cons, if_pos rfl] at hk
      exact absurd hk hc.2.2.1
    | cons c' m' =>
      obtain ⟨k', v'⟩ := c'
      have hc' := Memory.wfFrom_cons.mp hm'
      have hkk : k = k' := by
        rcases Nat.lt_trichotomy k k' with hlt | heq | hgt
        · have hk := h k
          rw [Memory.read_cons, if_pos rfl, Memory.read_cons, if_neg (by omega),
            Memory.read_below hc'.2.2.2 (by omega)] at hk
          exact absurd hk hc.2.2.1
        · exact heq
        · have hk := h k'
          rw [Memory.read_cons, if_neg (by omega), Memory.read_below hc.2.2.2 (by omega), Memory.read_cons,
            if_pos rfl] at hk
          exact absurd hk.symm hc'.2.2.1
      subst hkk
      have hv := h k
      rw [Memory.read_cons, if_pos rfl, Memory.read_cons, if_pos rfl] at hv
      subst hv
      have hrest : m = m' := by
        refine ih hc.2.2.2 hc'.2.2.2 fun i => ?_
        have hi := h i
        rw [Memory.read_cons, Memory.read_cons] at hi
        by_cases hki : k = i
        · subst hki
          rw [Memory.read_below hc.2.2.2 (by omega), Memory.read_below hc'.2.2.2 (by omega)]
        · rwa [if_neg hki, if_neg hki] at hi
      rw [hrest]

@[simp] theorem Memory.toList_length (size : Nat) (m : Memory w) : (Memory.toList size m).length = size := by
  simp [Memory.toList]

theorem Memory.toList_getD {size i : Nat} {m : Memory w} (h : i < size) :
    (Memory.toList size m).getD i 0#w = Memory.read m i := by
  simp [Memory.toList, List.getD_eq_getElem?_getD, h]

/-- An array in canonical form is given back by the list of its values. -/
theorem Memory.ofList_toList {size : Nat} {m : Memory w} (hm : Memory.wf size m = true) :
    Memory.ofList 0 (Memory.toList size m) = m := by
  have hl : Memory.wfFrom size 0 (Memory.ofList 0 (Memory.toList size m)) = true :=
    Memory.ofList_wfFrom (by simp)
  refine Memory.ext_of_read hl hm fun i => ?_
  rw [Memory.read_ofList, if_pos (Nat.zero_le i), Nat.sub_zero]
  by_cases hi : i < size
  · exact Memory.toList_getD hi
  · rw [Memory.read_past hm (by omega), List.getD_eq_default]
    simpa using hi

/-- Two arrays one after another are in canonical form when the first ends where the second begins. -/
theorem Memory.append_wfFrom {size lo mid : Nat} {m m' : Memory w} (hm : Memory.wfFrom mid lo m = true)
    (hmid : lo ≤ mid) (hs : mid ≤ size) (hm' : Memory.wfFrom size mid m' = true) :
    Memory.wfFrom size lo (m ++ m') = true := by
  induction m generalizing lo with
  | nil => exact Memory.wfFrom_mono hmid hm'
  | cons c m ih =>
    obtain ⟨k, v⟩ := c
    have hc := Memory.wfFrom_cons.mp hm
    exact Memory.wfFrom_cons.mpr ⟨hc.1, by omega, hc.2.2.1, ih hc.2.2.2 (by omega)⟩

/-- A read of two arrays one after another, the first ending where the second begins. -/
theorem Memory.read_append {size lo mid i : Nat} {m m' : Memory w} (hm : Memory.wfFrom mid lo m = true)
    (hm' : Memory.wfFrom size mid m' = true) :
    Memory.read (m ++ m') i = if i < mid then Memory.read m i else Memory.read m' i := by
  induction m generalizing lo with
  | nil =>
    split
    · next hi => exact (Memory.read_below hm' hi).trans rfl
    · rfl
  | cons c m ih =>
    obtain ⟨k, v⟩ := c
    have hc := Memory.wfFrom_cons.mp hm
    rw [List.cons_append, Memory.read_cons, Memory.read_cons, ih hc.2.2.2]
    by_cases hk : k = i
    · subst hk; rw [if_pos rfl, if_pos hc.2.1, if_pos rfl]
    · rw [if_neg hk, if_neg hk]

end Sys2Proof
end

