-- ==== Sys2Proof/Laws/Cartridge.lean ====
section
/-! SUPPORT. The load port: how a load ends, and the arrays it leaves. -/

namespace Sys2Proof.Machine

/-- A load commits the record its bytes parse to, or changes nothing (40_cartridge.md R100, R111). -/
theorem load_cases (bytes : List Byte) (s : State) :
    (∃ cart, parseCart s.cfg bytes = .ok cart ∧ load bytes s = (loadCommit cart s, .ok)) ∨
    (∃ reason, parseCart s.cfg bytes = .error reason ∧ load bytes s = (s, .formatError reason)) := by
  unfold load
  cases parseCart s.cfg bytes
  · exact .inr ⟨_, rfl, rfl⟩
  · exact .inl ⟨_, rfl, rfl⟩

/-- What an image that parses is. -/
theorem parseCart_ok {c : Config} {bytes : List Byte} {cart : Cart} (h : parseCart c bytes = .ok cart) :
    cart = cartOf c bytes ∧ c.headerLen + prgSizeOf bytes ≤ bytes.length := by
  unfold parseCart at h
  repeat' split at h
  all_goals cases h
  exact ⟨rfl, by omega⟩

/-- What a successful load did. -/
theorem load_ok {s t : State} {bytes : List Byte} (h : load bytes s = (t, .ok)) :
    t = loadCommit (cartOf s.cfg bytes) s ∧ s.cfg.headerLen + prgSizeOf bytes ≤ bytes.length := by
  rcases load_cases bytes s with ⟨cart, h1, h2⟩ | ⟨reason, h1, h2⟩
  · rw [h2] at h
    cases h
    obtain ⟨rfl, h3⟩ := parseCart_ok h1
    exact ⟨rfl, h3⟩
  · rw [h2] at h
    cases h

theorem magicOk_iff {c : Config} {bytes : List Byte} :
    magicOk c bytes = true ↔ bytes.take 4 = [c.magic0, c.magic1, c.magic2, c.magic3] := by
  unfold magicOk
  rw [beq_iff_eq]

/-- An image that passes every check parses (40_cartridge.md R100). -/
theorem parseCart_of_checks {c : Config} {bytes : List Byte} (hm : magicOk c bytes = true) (h8 : 8 ≤ bytes.length)
    (hp : c.headerLen + prgSizeOf bytes ≤ bytes.length)
    (hc : c.chrTruncation = .zeroFill ∨ c.headerLen + prgSizeOf bytes + chrSizeOf bytes ≤ bytes.length) :
    parseCart c bytes = .ok (cartOf c bytes) := by
  unfold parseCart
  rw [if_neg (by simp [hm]), if_neg (by omega), if_neg (by omega), if_neg]
  intro h
  rw [Bool.and_eq_true, beq_iff_eq] at h
  rcases hc with hc | hc
  · rw [hc] at h
    cases h.1
  · simp only [patternCut, decide_eq_true_eq] at h
    omega

theorem bank_length (prg : List Byte) (k : Nat) : (bank prg k).length ≤ 16384 := by
  unfold bank
  simp

/-- A byte of the two windows, one array in each. -/
theorem read_windows {low high : List Byte} (hl : low.length ≤ 16384) (hh : high.length ≤ 16384) (i : Nat) :
    Memory.read (Memory.ofList win0 low ++ Memory.ofList win1 high) i =
      if i < 0xC000 then (if 0x8000 ≤ i then low.getD (i - 0x8000) 0 else 0) else high.getD (i - 0xC000) 0 := by
  rw [Memory.read_append (size := 65536) (lo := win0) (mid := win1) (Memory.ofList_wfFrom (by simp; omega))
    (Memory.ofList_wfFrom (by simp; omega)), Memory.read_ofList, Memory.read_ofList]
  by_cases h : i < 0xC000
  · rw [if_pos (by exact h), if_pos h]
    rfl
  · rw [if_neg (by exact h), if_neg h, if_pos (by simp; omega)]
    rfl

/-- A byte of a program bank, in the image (40_cartridge.md R106). -/
theorem bank_getD {c : Config} {bytes : List Byte} {k i : Nat} (hi : i < 16384)
    (hk : (k + 1) * 16384 ≤ prgSizeOf bytes) :
    (bank (prgRegion c bytes) k).getD i 0 = bytes.getD (c.headerLen + k * 16384 + i) 0 := by
  unfold bank prgRegion
  rw [List.getD_eq_getElem?_getD, List.getD_eq_getElem?_getD, List.getElem?_take, List.getElem?_drop,
    List.getElem?_take, List.getElem?_drop, if_pos (by simpa using hi), if_pos (by simp; omega)]
  simp [Nat.add_assoc]

/-- A pattern byte a load takes, in the image (40_cartridge.md R107, R108). -/
theorem chrTaken_getD (c : Config) (bytes : List Byte) (i : Nat) :
    (chrTaken c bytes).getD i 0 =
      if i < chrSizeOf bytes then bytes.getD (c.headerLen + prgSizeOf bytes + i) 0 else 0 := by
  unfold chrTaken
  split
  · next h =>
    rw [h, if_neg (Nat.not_lt_zero _), List.getD_eq_getElem?_getD, List.getElem?_replicate]
    split <;> rfl
  · have hp : (chrPresent c bytes).length = min (chrSizeOf bytes) (bytes.length - (c.headerLen + prgSizeOf bytes)) := by
      simp [chrPresent]
    rw [List.getD_eq_getElem?_getD, List.getElem?_append]
    split
    · rw [if_pos (by omega)]
      unfold chrPresent
      rw [List.getElem?_take, if_pos (by omega), List.getElem?_drop, List.getD_eq_getElem?_getD]
    · have hz : (if i < chrSizeOf bytes then bytes.getD (c.headerLen + prgSizeOf bytes + i) 0 else 0) = 0#8 := by
        split
        · rw [List.getD_eq_default]
          · rfl
          · omega
        · rfl
      rw [List.getElem?_replicate, hz]
      split <;> rfl

/-- How many pattern bytes a load takes (40_cartridge.md R107, R108). -/
theorem chrTaken_length (c : Config) (bytes : List Byte) :
    (chrTaken c bytes).length = if chrSizeOf bytes = 0 then chrBank else chrSizeOf bytes := by
  unfold chrTaken
  split
  · rw [List.length_replicate]
  · rw [List.length_append, List.length_replicate]
    have : (chrPresent c bytes).length ≤ chrSizeOf bytes := by simp [chrPresent]
    omega

/-- A byte of PAT after a load (40_cartridge.md R110). -/
theorem loadCommit_pat_read {s : State} {bytes : List Byte} {i : Nat} (hi : i < 16384) :
    Memory.read (loadCommit (cartOf s.cfg bytes) s).pat i = (chrTaken s.cfg bytes).getD i 0 := by
  show Memory.read (Memory.ofList 0 ((chrTaken s.cfg bytes).take patSize)) i = _
  rw [Memory.read_ofList, if_pos (Nat.zero_le _), Nat.sub_zero, List.getD_eq_getElem?_getD, List.getElem?_take,
    if_pos (by simpa using hi), List.getD_eq_getElem?_getD]
  rfl

/-- M after a load is in canonical form. -/
theorem loadedMem_wf (cart : Cart) : Memory.wf memSize (loadedMem cart) = true := by
  have pair : ∀ k, Memory.wf memSize (Memory.ofList win0 (bank cart.prg 0) ++ Memory.ofList win1 (bank cart.prg k)) = true := by
    intro k
    have h0 := bank_length cart.prg 0
    have hk := bank_length cart.prg k
    exact Memory.append_wfFrom (mid := win1)
      (Memory.wfFrom_mono (Nat.zero_le _) (Memory.ofList_wfFrom (by simp; omega))) (by simp) (by simp)
      (Memory.ofList_wfFrom (by simp; omega))
  unfold loadedMem mapBanks
  split
  · split
    · rfl
    · split
      · exact pair 0
      · exact pair 1
  · rfl

/-- The record an image parses to (40_cartridge.md R109). -/
theorem cartOf_ok {c : Config} {bytes : List Byte} (h : c.headerLen + prgSizeOf bytes ≤ bytes.length) :
    (cartOf c bytes).Ok := by
  refine ⟨?_, ?_, ?_, ?_⟩
  · show (prgRegion c bytes).length = prgSizeOf bytes
    simp [prgRegion]
    omega
  · show prgSizeOf bytes % prgBank = 0
    simp [prgSizeOf]
  · exact chrTaken_length c bytes
  · show chrSizeOf bytes % chrBank = 0
    simp [chrSizeOf]

end Sys2Proof.Machine
end

