-- ==== Sys2Proof/Laws/Decode.lean ====
section
/-! SUPPORT. The dispatch table and the decoder: which handler each opcode has, and what decoding can answer. -/

namespace Sys2Proof

/-- The four opcodes of a well-formed configuration have their own handlers (30_encoding.md R87). -/
theorem handlerOf_opcodes {c : Config} (h : c.wf = true) :
    handlerOf c c.opcLdaImm = .ldaImm ∧ handlerOf c c.opcLdaAbs = .ldaAbs ∧
      handlerOf c c.opcStaAbs = .staAbs ∧ handlerOf c c.opcJmpAbs = .jmpAbs := by
  simp only [Config.wf, Config.opcodesDistinct, Bool.and_eq_true, bne_iff_ne, ne_eq] at h
  obtain ⟨⟨⟨⟨⟨⟨⟨h1, h2⟩, h3⟩, h4⟩, h5⟩, h6⟩, _⟩, _⟩ := h
  refine ⟨?_, ?_, ?_, ?_⟩
  · rw [handlerOf, if_pos rfl]
  · rw [handlerOf, if_neg (Ne.symm h1), if_pos rfl]
  · rw [handlerOf, if_neg (Ne.symm h2), if_neg (Ne.symm h4), if_pos rfl]
  · rw [handlerOf, if_neg (Ne.symm h3), if_neg (Ne.symm h5), if_neg (Ne.symm h6), if_pos rfl]

/-- The opcodes with the default entry are exactly those of well-formed fallbacks (30_encoding.md R88). -/
theorem handlerOf_unimpl_iff {c : Config} {op : Byte} :
    handlerOf c op = .unimpl ↔ Instr.wf c (.unimpl op) = true := by
  unfold handlerOf Instr.wf
  simp only [Bool.and_eq_true, bne_iff_ne, ne_eq]
  repeat' split
  all_goals simp_all

/-- Which opcode a handler came from. -/
theorem handlerOf_inv {c : Config} {op : Byte} :
    match handlerOf c op with
    | .ldaImm => op = c.opcLdaImm
    | .ldaAbs => op = c.opcLdaAbs
    | .staAbs => op = c.opcStaAbs
    | .jmpAbs => op = c.opcJmpAbs
    | .unimpl => Instr.wf c (.unimpl op) = true := by
  cases h : handlerOf c op
  case unimpl => exact handlerOf_unimpl_iff.mp h
  all_goals
    unfold handlerOf at h
    repeat' split at h
    all_goals first | assumption | cases h

/-- Three bytes always decode, whatever they are (30_encoding.md R88, R89). -/
theorem decode_three_total (c : Config) (b0 b1 b2 : Byte) : ∃ i rest, decode c [b0, b1, b2] = .ok (i, rest) := by
  cases h : handlerOf c b0 <;> simp [decode, h, decodeImm8, decodeAbs16]

/-- The bits of a table word above `nbits` count for nothing. -/
theorem tableWordBytes_mod (nbits w : Nat) : tableWordBytes nbits (w % 2 ^ nbits) = tableWordBytes nbits w := by
  simp [tableWordBytes]

end Sys2Proof
end

