-- ==== Sys2Proof/Laws/Flags.lean ====
section
/-! SUPPORT. The bits of P after each flag computation, and the two bytes of a 16-bit value. -/

namespace Sys2Proof.Machine

/-- Setting a bit sets that bit and keeps the others. -/
theorem putBit_getLsbD (p : Byte) (i : Fin 8) (b : Bool) (j : Nat) (hj : j < 8) :
    (putBit p i b).getLsbD j = if j = i.val then b else p.getLsbD j := by
  have hi := i.isLt
  unfold putBit
  cases b
  · simp only [Bool.false_eq_true, if_false, BitVec.getLsbD_and, BitVec.getLsbD_not, BitVec.getLsbD_shiftLeft]
    by_cases h : j = i.val
    · subst h; simp [hj]
    · rw [if_neg h]
      by_cases hlt : j < i.val
      · simp [hj, hlt]
      · have : j - i.val ≠ 0 := by omega
        simp [hj, hlt, this]
  · simp only [if_true, BitVec.getLsbD_or, BitVec.getLsbD_shiftLeft]
    by_cases h : j = i.val
    · subst h; simp [hj]
    · rw [if_neg h]
      by_cases hlt : j < i.val
      · simp [hj, hlt]
      · have : j - i.val ≠ 0 := by omega
        simp [hj, hlt, this]

/-- The bits of P after `SetNZ`: N, then Z, then the others kept (42_cpu_load_store.md R130). -/
theorem setNZ_getLsbD (c : Config) (v p : Byte) (j : Nat) (hj : j < 8) :
    (setNZ c v p).getLsbD j =
      if j = c.bitN.val then v.getLsbD 7 else if j = c.bitZ.val then v == 0#8 else p.getLsbD j := by
  unfold setNZ
  rw [putBit_getLsbD _ _ _ _ hj, putBit_getLsbD _ _ _ _ hj]
  rfl

/-- N, Z and I of a well-formed configuration are three bits. -/
theorem bits_distinct {c : Config} (h : c.wf = true) : c.bitN ≠ c.bitZ ∧ c.bitN ≠ c.bitI ∧ c.bitZ ≠ c.bitI := by
  simp only [Config.wf, Config.bitsDistinct, Bool.and_eq_true, bne_iff_ne, ne_eq] at h
  exact ⟨h.1.2.1.1, h.1.2.1.2, h.1.2.2⟩

/-- N after `SetNZ`. -/
theorem setNZ_bitN {c : Config} (v p : Byte) : (setNZ c v p).getLsbD c.bitN = v.getLsbD 7 := by
  rw [setNZ_getLsbD _ _ _ _ c.bitN.isLt, if_pos rfl]

/-- Z after `SetNZ`. -/
theorem setNZ_bitZ {c : Config} (h : c.wf = true) (v p : Byte) : (setNZ c v p).getLsbD c.bitZ = decide (v = 0) := by
  rw [setNZ_getLsbD _ _ _ _ c.bitZ.isLt, if_neg (fun e => (bits_distinct h).1 (Fin.ext e.symm)), if_pos rfl]
  by_cases hv : v = 0#8 <;> simp [hv]

/-- Every other bit after `SetNZ`. -/
theorem setNZ_other {c : Config} (v p : Byte) {j : Fin 8} (hz : j ≠ c.bitZ) (hn : j ≠ c.bitN) :
    (setNZ c v p).getLsbD j = p.getLsbD j := by
  rw [setNZ_getLsbD _ _ _ _ j.isLt, if_neg (fun e => hn (Fin.ext e)), if_neg (fun e => hz (Fin.ext e))]

/-- The bits of P after I is set (10_state.md R28). -/
theorem setI_getLsbD (c : Config) (p : Byte) (j : Nat) (hj : j < 8) :
    (setI c p).getLsbD j = if j = c.bitI.val then true else p.getLsbD j :=
  putBit_getLsbD p c.bitI true j hj

end Sys2Proof.Machine

namespace Sys2Proof

/-- The two bytes of a value, put together again, are the value. -/
@[simp] theorem word16_hiByte_loByte (a : Addr) : word16 (hiByte a) (loByte a) = a := by
  apply BitVec.eq_of_getLsbD_eq
  intro i hi
  simp only [word16, hiByte, loByte, BitVec.getLsbD_append, BitVec.getLsbD_extractLsb']
  by_cases h : i < 8
  · simp [h]
  · simp [h, show i - 8 < 8 by omega, show 8 + (i - 8) = i by omega]

@[simp] theorem loByte_word16 (hi lo : Byte) : loByte (word16 hi lo) = lo := by
  apply BitVec.eq_of_getLsbD_eq
  intro i h
  simp only [word16, loByte, BitVec.getLsbD_append, BitVec.getLsbD_extractLsb']
  simp [h]

@[simp] theorem hiByte_word16 (hi lo : Byte) : hiByte (word16 hi lo) = hi := by
  apply BitVec.eq_of_getLsbD_eq
  intro i h
  simp only [word16, hiByte, BitVec.getLsbD_append, BitVec.getLsbD_extractLsb']
  simp [h]

/-- A 16-bit value in terms of its bytes. -/
theorem word16_toNat (hi lo : Byte) : (word16 hi lo).toNat = hi.toNat * 256 + lo.toNat := by
  unfold word16
  rw [BitVec.toNat_append, Nat.shiftLeft_eq, Nat.mul_comm, ← Nat.two_pow_add_eq_or_of_lt (BitVec.isLt _)]

theorem word16_eq {hi lo : Byte} {a : Addr} (h : hi.toNat * 256 + lo.toNat = a.toNat) : word16 hi lo = a :=
  BitVec.eq_of_toNat_eq (by rw [word16_toNat, h])

theorem hiByte_toNat (a : Addr) : (hiByte a).toNat = a.toNat / 256 := by
  simp [hiByte, BitVec.extractLsb'_toNat, Nat.shiftRight_eq_div_pow]
  omega

theorem loByte_toNat (a : Addr) : (loByte a).toNat = a.toNat % 256 := by
  simp [loByte, BitVec.extractLsb'_toNat]

end Sys2Proof
end

