-- ==== Sys2Proof/Laws/State.lean ====
section
/-! SUPPORT. Every field after every named update of State, so that no later proof unfolds a record update. -/

namespace Sys2Proof.Machine

@[simp] theorem State.setA_cfg (v : Byte) (s : State) : (s.setA v).cfg = s.cfg := rfl
@[simp] theorem State.setA_a (v : Byte) (s : State) : (s.setA v).a = v := rfl
@[simp] theorem State.setA_x (v : Byte) (s : State) : (s.setA v).x = s.x := rfl
@[simp] theorem State.setA_y (v : Byte) (s : State) : (s.setA v).y = s.y := rfl
@[simp] theorem State.setA_sp (v : Byte) (s : State) : (s.setA v).sp = s.sp := rfl
@[simp] theorem State.setA_p (v : Byte) (s : State) : (s.setA v).p = s.p := rfl
@[simp] theorem State.setA_pc (v : Byte) (s : State) : (s.setA v).pc = s.pc := rfl
@[simp] theorem State.setA_mem (v : Byte) (s : State) : (s.setA v).mem = s.mem := rfl
@[simp] theorem State.setA_pat (v : Byte) (s : State) : (s.setA v).pat = s.pat := rfl
@[simp] theorem State.setA_nt (v : Byte) (s : State) : (s.setA v).nt = s.nt := rfl
@[simp] theorem State.setA_pal (v : Byte) (s : State) : (s.setA v).pal = s.pal := rfl
@[simp] theorem State.setA_fb (v : Byte) (s : State) : (s.setA v).fb = s.fb := rfl
@[simp] theorem State.setA_buttons (v : Byte) (s : State) : (s.setA v).buttons = s.buttons := rfl
@[simp] theorem State.setA_pend (v : Byte) (s : State) : (s.setA v).pend = s.pend := rfl
@[simp] theorem State.setA_cyc (v : Byte) (s : State) : (s.setA v).cyc = s.cyc := rfl
@[simp] theorem State.setA_acc (v : Byte) (s : State) : (s.setA v).acc = s.acc := rfl
@[simp] theorem State.setA_run (v : Byte) (s : State) : (s.setA v).run = s.run := rfl
@[simp] theorem State.setA_phase (v : Byte) (s : State) : (s.setA v).phase = s.phase := rfl
@[simp] theorem State.setA_budget (v : Byte) (s : State) : (s.setA v).budget = s.budget := rfl
@[simp] theorem State.setA_speed (v : Byte) (s : State) : (s.setA v).speed = s.speed := rfl
@[simp] theorem State.setA_cart (v : Byte) (s : State) : (s.setA v).cart = s.cart := rfl
@[simp] theorem State.setA_loaded (v : Byte) (s : State) : (s.setA v).loaded = s.loaded := rfl
@[simp] theorem State.setA_turns (v : Byte) (s : State) : (s.setA v).turns = s.turns := rfl
@[simp] theorem State.setA_replies (v : Byte) (s : State) : (s.setA v).replies = s.replies := rfl

@[simp] theorem State.setP_cfg (v : Byte) (s : State) : (s.setP v).cfg = s.cfg := rfl
@[simp] theorem State.setP_a (v : Byte) (s : State) : (s.setP v).a = s.a := rfl
@[simp] theorem State.setP_x (v : Byte) (s : State) : (s.setP v).x = s.x := rfl
@[simp] theorem State.setP_y (v : Byte) (s : State) : (s.setP v).y = s.y := rfl
@[simp] theorem State.setP_sp (v : Byte) (s : State) : (s.setP v).sp = s.sp := rfl
@[simp] theorem State.setP_p (v : Byte) (s : State) : (s.setP v).p = v := rfl
@[simp] theorem State.setP_pc (v : Byte) (s : State) : (s.setP v).pc = s.pc := rfl
@[simp] theorem State.setP_mem (v : Byte) (s : State) : (s.setP v).mem = s.mem := rfl
@[simp] theorem State.setP_pat (v : Byte) (s : State) : (s.setP v).pat = s.pat := rfl
@[simp] theorem State.setP_nt (v : Byte) (s : State) : (s.setP v).nt = s.nt := rfl
@[simp] theorem State.setP_pal (v : Byte) (s : State) : (s.setP v).pal = s.pal := rfl
@[simp] theorem State.setP_fb (v : Byte) (s : State) : (s.setP v).fb = s.fb := rfl
@[simp] theorem State.setP_buttons (v : Byte) (s : State) : (s.setP v).buttons = s.buttons := rfl
@[simp] theorem State.setP_pend (v : Byte) (s : State) : (s.setP v).pend = s.pend := rfl
@[simp] theorem State.setP_cyc (v : Byte) (s : State) : (s.setP v).cyc = s.cyc := rfl
@[simp] theorem State.setP_acc (v : Byte) (s : State) : (s.setP v).acc = s.acc := rfl
@[simp] theorem State.setP_run (v : Byte) (s : State) : (s.setP v).run = s.run := rfl
@[simp] theorem State.setP_phase (v : Byte) (s : State) : (s.setP v).phase = s.phase := rfl
@[simp] theorem State.setP_budget (v : Byte) (s : State) : (s.setP v).budget = s.budget := rfl
@[simp] theorem State.setP_speed (v : Byte) (s : State) : (s.setP v).speed = s.speed := rfl
@[simp] theorem State.setP_cart (v : Byte) (s : State) : (s.setP v).cart = s.cart := rfl
@[simp] theorem State.setP_loaded (v : Byte) (s : State) : (s.setP v).loaded = s.loaded := rfl
@[simp] theorem State.setP_turns (v : Byte) (s : State) : (s.setP v).turns = s.turns := rfl
@[simp] theorem State.setP_replies (v : Byte) (s : State) : (s.setP v).replies = s.replies := rfl

@[simp] theorem State.setSp_cfg (v : Byte) (s : State) : (s.setSp v).cfg = s.cfg := rfl
@[simp] theorem State.setSp_a (v : Byte) (s : State) : (s.setSp v).a = s.a := rfl
@[simp] theorem State.setSp_x (v : Byte) (s : State) : (s.setSp v).x = s.x := rfl
@[simp] theorem State.setSp_y (v : Byte) (s : State) : (s.setSp v).y = s.y := rfl
@[simp] theorem State.setSp_sp (v : Byte) (s : State) : (s.setSp v).sp = v := rfl
@[simp] theorem State.setSp_p (v : Byte) (s : State) : (s.setSp v).p = s.p := rfl
@[simp] theorem State.setSp_pc (v : Byte) (s : State) : (s.setSp v).pc = s.pc := rfl
@[simp] theorem State.setSp_mem (v : Byte) (s : State) : (s.setSp v).mem = s.mem := rfl
@[simp] theorem State.setSp_pat (v : Byte) (s : State) : (s.setSp v).pat = s.pat := rfl
@[simp] theorem State.setSp_nt (v : Byte) (s : State) : (s.setSp v).nt = s.nt := rfl
@[simp] theorem State.setSp_pal (v : Byte) (s : State) : (s.setSp v).pal = s.pal := rfl
@[simp] theorem State.setSp_fb (v : Byte) (s : State) : (s.setSp v).fb = s.fb := rfl
@[simp] theorem State.setSp_buttons (v : Byte) (s : State) : (s.setSp v).buttons = s.buttons := rfl
@[simp] theorem State.setSp_pend (v : Byte) (s : State) : (s.setSp v).pend = s.pend := rfl
@[simp] theorem State.setSp_cyc (v : Byte) (s : State) : (s.setSp v).cyc = s.cyc := rfl
@[simp] theorem State.setSp_acc (v : Byte) (s : State) : (s.setSp v).acc = s.acc := rfl
@[simp] theorem State.setSp_run (v : Byte) (s : State) : (s.setSp v).run = s.run := rfl
@[simp] theorem State.setSp_phase (v : Byte) (s : State) : (s.setSp v).phase = s.phase := rfl
@[simp] theorem State.setSp_budget (v : Byte) (s : State) : (s.setSp v).budget = s.budget := rfl
@[simp] theorem State.setSp_speed (v : Byte) (s : State) : (s.setSp v).speed = s.speed := rfl
@[simp] theorem State.setSp_cart (v : Byte) (s : State) : (s.setSp v).cart = s.cart := rfl
@[simp] theorem State.setSp_loaded (v : Byte) (s : State) : (s.setSp v).loaded = s.loaded := rfl
@[simp] theorem State.setSp_turns (v : Byte) (s : State) : (s.setSp v).turns = s.turns := rfl
@[simp] theorem State.setSp_replies (v : Byte) (s : State) : (s.setSp v).replies = s.replies := rfl

@[simp] theorem State.setPc_cfg (v : Addr) (s : State) : (s.setPc v).cfg = s.cfg := rfl
@[simp] theorem State.setPc_a (v : Addr) (s : State) : (s.setPc v).a = s.a := rfl
@[simp] theorem State.setPc_x (v : Addr) (s : State) : (s.setPc v).x = s.x := rfl
@[simp] theorem State.setPc_y (v : Addr) (s : State) : (s.setPc v).y = s.y := rfl
@[simp] theorem State.setPc_sp (v : Addr) (s : State) : (s.setPc v).sp = s.sp := rfl
@[simp] theorem State.setPc_p (v : Addr) (s : State) : (s.setPc v).p = s.p := rfl
@[simp] theorem State.setPc_pc (v : Addr) (s : State) : (s.setPc v).pc = v := rfl
@[simp] theorem State.setPc_mem (v : Addr) (s : State) : (s.setPc v).mem = s.mem := rfl
@[simp] theorem State.setPc_pat (v : Addr) (s : State) : (s.setPc v).pat = s.pat := rfl
@[simp] theorem State.setPc_nt (v : Addr) (s : State) : (s.setPc v).nt = s.nt := rfl
@[simp] theorem State.setPc_pal (v : Addr) (s : State) : (s.setPc v).pal = s.pal := rfl
@[simp] theorem State.setPc_fb (v : Addr) (s : State) : (s.setPc v).fb = s.fb := rfl
@[simp] theorem State.setPc_buttons (v : Addr) (s : State) : (s.setPc v).buttons = s.buttons := rfl
@[simp] theorem State.setPc_pend (v : Addr) (s : State) : (s.setPc v).pend = s.pend := rfl
@[simp] theorem State.setPc_cyc (v : Addr) (s : State) : (s.setPc v).cyc = s.cyc := rfl
@[simp] theorem State.setPc_acc (v : Addr) (s : State) : (s.setPc v).acc = s.acc := rfl
@[simp] theorem State.setPc_run (v : Addr) (s : State) : (s.setPc v).run = s.run := rfl
@[simp] theorem State.setPc_phase (v : Addr) (s : State) : (s.setPc v).phase = s.phase := rfl
@[simp] theorem State.setPc_budget (v : Addr) (s : State) : (s.setPc v).budget = s.budget := rfl
@[simp] theorem State.setPc_speed (v : Addr) (s : State) : (s.setPc v).speed = s.speed := rfl
@[simp] theorem State.setPc_cart (v : Addr) (s : State) : (s.setPc v).cart = s.cart := rfl
@[simp] theorem State.setPc_loaded (v : Addr) (s : State) : (s.setPc v).loaded = s.loaded := rfl
@[simp] theorem State.setPc_turns (v : Addr) (s : State) : (s.setPc v).turns = s.turns := rfl
@[simp] theorem State.setPc_replies (v : Addr) (s : State) : (s.setPc v).replies = s.replies := rfl

@[simp] theorem State.setMem_cfg (m : Memory 8) (s : State) : (s.setMem m).cfg = s.cfg := rfl
@[simp] theorem State.setMem_a (m : Memory 8) (s : State) : (s.setMem m).a = s.a := rfl
@[simp] theorem State.setMem_x (m : Memory 8) (s : State) : (s.setMem m).x = s.x := rfl
@[simp] theorem State.setMem_y (m : Memory 8) (s : State) : (s.setMem m).y = s.y := rfl
@[simp] theorem State.setMem_sp (m : Memory 8) (s : State) : (s.setMem m).sp = s.sp := rfl
@[simp] theorem State.setMem_p (m : Memory 8) (s : State) : (s.setMem m).p = s.p := rfl
@[simp] theorem State.setMem_pc (m : Memory 8) (s : State) : (s.setMem m).pc = s.pc := rfl
@[simp] theorem State.setMem_mem (m : Memory 8) (s : State) : (s.setMem m).mem = m := rfl
@[simp] theorem State.setMem_pat (m : Memory 8) (s : State) : (s.setMem m).pat = s.pat := rfl
@[simp] theorem State.setMem_nt (m : Memory 8) (s : State) : (s.setMem m).nt = s.nt := rfl
@[simp] theorem State.setMem_pal (m : Memory 8) (s : State) : (s.setMem m).pal = s.pal := rfl
@[simp] theorem State.setMem_fb (m : Memory 8) (s : State) : (s.setMem m).fb = s.fb := rfl
@[simp] theorem State.setMem_buttons (m : Memory 8) (s : State) : (s.setMem m).buttons = s.buttons := rfl
@[simp] theorem State.setMem_pend (m : Memory 8) (s : State) : (s.setMem m).pend = s.pend := rfl
@[simp] theorem State.setMem_cyc (m : Memory 8) (s : State) : (s.setMem m).cyc = s.cyc := rfl
@[simp] theorem State.setMem_acc (m : Memory 8) (s : State) : (s.setMem m).acc = s.acc := rfl
@[simp] theorem State.setMem_run (m : Memory 8) (s : State) : (s.setMem m).run = s.run := rfl
@[simp] theorem State.setMem_phase (m : Memory 8) (s : State) : (s.setMem m).phase = s.phase := rfl
@[simp] theorem State.setMem_budget (m : Memory 8) (s : State) : (s.setMem m).budget = s.budget := rfl
@[simp] theorem State.setMem_speed (m : Memory 8) (s : State) : (s.setMem m).speed = s.speed := rfl
@[simp] theorem State.setMem_cart (m : Memory 8) (s : State) : (s.setMem m).cart = s.cart := rfl
@[simp] theorem State.setMem_loaded (m : Memory 8) (s : State) : (s.setMem m).loaded = s.loaded := rfl
@[simp] theorem State.setMem_turns (m : Memory 8) (s : State) : (s.setMem m).turns = s.turns := rfl
@[simp] theorem State.setMem_replies (m : Memory 8) (s : State) : (s.setMem m).replies = s.replies := rfl

@[simp] theorem State.setPend_cfg (b : Bool) (s : State) : (s.setPend b).cfg = s.cfg := rfl
@[simp] theorem State.setPend_a (b : Bool) (s : State) : (s.setPend b).a = s.a := rfl
@[simp] theorem State.setPend_x (b : Bool) (s : State) : (s.setPend b).x = s.x := rfl
@[simp] theorem State.setPend_y (b : Bool) (s : State) : (s.setPend b).y = s.y := rfl
@[simp] theorem State.setPend_sp (b : Bool) (s : State) : (s.setPend b).sp = s.sp := rfl
@[simp] theorem State.setPend_p (b : Bool) (s : State) : (s.setPend b).p = s.p := rfl
@[simp] theorem State.setPend_pc (b : Bool) (s : State) : (s.setPend b).pc = s.pc := rfl
@[simp] theorem State.setPend_mem (b : Bool) (s : State) : (s.setPend b).mem = s.mem := rfl
@[simp] theorem State.setPend_pat (b : Bool) (s : State) : (s.setPend b).pat = s.pat := rfl
@[simp] theorem State.setPend_nt (b : Bool) (s : State) : (s.setPend b).nt = s.nt := rfl
@[simp] theorem State.setPend_pal (b : Bool) (s : State) : (s.setPend b).pal = s.pal := rfl
@[simp] theorem State.setPend_fb (b : Bool) (s : State) : (s.setPend b).fb = s.fb := rfl
@[simp] theorem State.setPend_buttons (b : Bool) (s : State) : (s.setPend b).buttons = s.buttons := rfl
@[simp] theorem State.setPend_pend (b : Bool) (s : State) : (s.setPend b).pend = b := rfl
@[simp] theorem State.setPend_cyc (b : Bool) (s : State) : (s.setPend b).cyc = s.cyc := rfl
@[simp] theorem State.setPend_acc (b : Bool) (s : State) : (s.setPend b).acc = s.acc := rfl
@[simp] theorem State.setPend_run (b : Bool) (s : State) : (s.setPend b).run = s.run := rfl
@[simp] theorem State.setPend_phase (b : Bool) (s : State) : (s.setPend b).phase = s.phase := rfl
@[simp] theorem State.setPend_budget (b : Bool) (s : State) : (s.setPend b).budget = s.budget := rfl
@[simp] theorem State.setPend_speed (b : Bool) (s : State) : (s.setPend b).speed = s.speed := rfl
@[simp] theorem State.setPend_cart (b : Bool) (s : State) : (s.setPend b).cart = s.cart := rfl
@[simp] theorem State.setPend_loaded (b : Bool) (s : State) : (s.setPend b).loaded = s.loaded := rfl
@[simp] theorem State.setPend_turns (b : Bool) (s : State) : (s.setPend b).turns = s.turns := rfl
@[simp] theorem State.setPend_replies (b : Bool) (s : State) : (s.setPend b).replies = s.replies := rfl

@[simp] theorem State.setPhase_cfg (ph : Phase) (s : State) : (s.setPhase ph).cfg = s.cfg := rfl
@[simp] theorem State.setPhase_a (ph : Phase) (s : State) : (s.setPhase ph).a = s.a := rfl
@[simp] theorem State.setPhase_x (ph : Phase) (s : State) : (s.setPhase ph).x = s.x := rfl
@[simp] theorem State.setPhase_y (ph : Phase) (s : State) : (s.setPhase ph).y = s.y := rfl
@[simp] theorem State.setPhase_sp (ph : Phase) (s : State) : (s.setPhase ph).sp = s.sp := rfl
@[simp] theorem State.setPhase_p (ph : Phase) (s : State) : (s.setPhase ph).p = s.p := rfl
@[simp] theorem State.setPhase_pc (ph : Phase) (s : State) : (s.setPhase ph).pc = s.pc := rfl
@[simp] theorem State.setPhase_mem (ph : Phase) (s : State) : (s.setPhase ph).mem = s.mem := rfl
@[simp] theorem State.setPhase_pat (ph : Phase) (s : State) : (s.setPhase ph).pat = s.pat := rfl
@[simp] theorem State.setPhase_nt (ph : Phase) (s : State) : (s.setPhase ph).nt = s.nt := rfl
@[simp] theorem State.setPhase_pal (ph : Phase) (s : State) : (s.setPhase ph).pal = s.pal := rfl
@[simp] theorem State.setPhase_fb (ph : Phase) (s : State) : (s.setPhase ph).fb = s.fb := rfl
@[simp] theorem State.setPhase_buttons (ph : Phase) (s : State) : (s.setPhase ph).buttons = s.buttons := rfl
@[simp] theorem State.setPhase_pend (ph : Phase) (s : State) : (s.setPhase ph).pend = s.pend := rfl
@[simp] theorem State.setPhase_cyc (ph : Phase) (s : State) : (s.setPhase ph).cyc = s.cyc := rfl
@[simp] theorem State.setPhase_acc (ph : Phase) (s : State) : (s.setPhase ph).acc = s.acc := rfl
@[simp] theorem State.setPhase_run (ph : Phase) (s : State) : (s.setPhase ph).run = s.run := rfl
@[simp] theorem State.setPhase_phase (ph : Phase) (s : State) : (s.setPhase ph).phase = ph := rfl
@[simp] theorem State.setPhase_budget (ph : Phase) (s : State) : (s.setPhase ph).budget = s.budget := rfl
@[simp] theorem State.setPhase_speed (ph : Phase) (s : State) : (s.setPhase ph).speed = s.speed := rfl
@[simp] theorem State.setPhase_cart (ph : Phase) (s : State) : (s.setPhase ph).cart = s.cart := rfl
@[simp] theorem State.setPhase_loaded (ph : Phase) (s : State) : (s.setPhase ph).loaded = s.loaded := rfl
@[simp] theorem State.setPhase_turns (ph : Phase) (s : State) : (s.setPhase ph).turns = s.turns := rfl
@[simp] theorem State.setPhase_replies (ph : Phase) (s : State) : (s.setPhase ph).replies = s.replies := rfl

@[simp] theorem State.setFb_cfg (f : Memory 6) (s : State) : (s.setFb f).cfg = s.cfg := rfl
@[simp] theorem State.setFb_a (f : Memory 6) (s : State) : (s.setFb f).a = s.a := rfl
@[simp] theorem State.setFb_x (f : Memory 6) (s : State) : (s.setFb f).x = s.x := rfl
@[simp] theorem State.setFb_y (f : Memory 6) (s : State) : (s.setFb f).y = s.y := rfl
@[simp] theorem State.setFb_sp (f : Memory 6) (s : State) : (s.setFb f).sp = s.sp := rfl
@[simp] theorem State.setFb_p (f : Memory 6) (s : State) : (s.setFb f).p = s.p := rfl
@[simp] theorem State.setFb_pc (f : Memory 6) (s : State) : (s.setFb f).pc = s.pc := rfl
@[simp] theorem State.setFb_mem (f : Memory 6) (s : State) : (s.setFb f).mem = s.mem := rfl
@[simp] theorem State.setFb_pat (f : Memory 6) (s : State) : (s.setFb f).pat = s.pat := rfl
@[simp] theorem State.setFb_nt (f : Memory 6) (s : State) : (s.setFb f).nt = s.nt := rfl
@[simp] theorem State.setFb_pal (f : Memory 6) (s : State) : (s.setFb f).pal = s.pal := rfl
@[simp] theorem State.setFb_fb (f : Memory 6) (s : State) : (s.setFb f).fb = f := rfl
@[simp] theorem State.setFb_buttons (f : Memory 6) (s : State) : (s.setFb f).buttons = s.buttons := rfl
@[simp] theorem State.setFb_pend (f : Memory 6) (s : State) : (s.setFb f).pend = s.pend := rfl
@[simp] theorem State.setFb_cyc (f : Memory 6) (s : State) : (s.setFb f).cyc = s.cyc := rfl
@[simp] theorem State.setFb_acc (f : Memory 6) (s : State) : (s.setFb f).acc = s.acc := rfl
@[simp] theorem State.setFb_run (f : Memory 6) (s : State) : (s.setFb f).run = s.run := rfl
@[simp] theorem State.setFb_phase (f : Memory 6) (s : State) : (s.setFb f).phase = s.phase := rfl
@[simp] theorem State.setFb_budget (f : Memory 6) (s : State) : (s.setFb f).budget = s.budget := rfl
@[simp] theorem State.setFb_speed (f : Memory 6) (s : State) : (s.setFb f).speed = s.speed := rfl
@[simp] theorem State.setFb_cart (f : Memory 6) (s : State) : (s.setFb f).cart = s.cart := rfl
@[simp] theorem State.setFb_loaded (f : Memory 6) (s : State) : (s.setFb f).loaded = s.loaded := rfl
@[simp] theorem State.setFb_turns (f : Memory 6) (s : State) : (s.setFb f).turns = s.turns := rfl
@[simp] theorem State.setFb_replies (f : Memory 6) (s : State) : (s.setFb f).replies = s.replies := rfl

@[simp] theorem State.charge_cfg (c : Nat) (s : State) : (s.charge c).cfg = s.cfg := rfl
@[simp] theorem State.charge_a (c : Nat) (s : State) : (s.charge c).a = s.a := rfl
@[simp] theorem State.charge_x (c : Nat) (s : State) : (s.charge c).x = s.x := rfl
@[simp] theorem State.charge_y (c : Nat) (s : State) : (s.charge c).y = s.y := rfl
@[simp] theorem State.charge_sp (c : Nat) (s : State) : (s.charge c).sp = s.sp := rfl
@[simp] theorem State.charge_p (c : Nat) (s : State) : (s.charge c).p = s.p := rfl
@[simp] theorem State.charge_pc (c : Nat) (s : State) : (s.charge c).pc = s.pc := rfl
@[simp] theorem State.charge_mem (c : Nat) (s : State) : (s.charge c).mem = s.mem := rfl
@[simp] theorem State.charge_pat (c : Nat) (s : State) : (s.charge c).pat = s.pat := rfl
@[simp] theorem State.charge_nt (c : Nat) (s : State) : (s.charge c).nt = s.nt := rfl
@[simp] theorem State.charge_pal (c : Nat) (s : State) : (s.charge c).pal = s.pal := rfl
@[simp] theorem State.charge_fb (c : Nat) (s : State) : (s.charge c).fb = s.fb := rfl
@[simp] theorem State.charge_buttons (c : Nat) (s : State) : (s.charge c).buttons = s.buttons := rfl
@[simp] theorem State.charge_pend (c : Nat) (s : State) : (s.charge c).pend = s.pend := rfl
@[simp] theorem State.charge_cyc (c : Nat) (s : State) : (s.charge c).cyc = s.cyc + c := rfl
@[simp] theorem State.charge_acc (c : Nat) (s : State) : (s.charge c).acc = s.acc := rfl
@[simp] theorem State.charge_run (c : Nat) (s : State) : (s.charge c).run = s.run := rfl
@[simp] theorem State.charge_phase (c : Nat) (s : State) : (s.charge c).phase = s.phase := rfl
@[simp] theorem State.charge_budget (c : Nat) (s : State) : (s.charge c).budget = s.budget := rfl
@[simp] theorem State.charge_speed (c : Nat) (s : State) : (s.charge c).speed = s.speed := rfl
@[simp] theorem State.charge_cart (c : Nat) (s : State) : (s.charge c).cart = s.cart := rfl
@[simp] theorem State.charge_loaded (c : Nat) (s : State) : (s.charge c).loaded = s.loaded := rfl
@[simp] theorem State.charge_turns (c : Nat) (s : State) : (s.charge c).turns = s.turns := rfl
@[simp] theorem State.charge_replies (c : Nat) (s : State) : (s.charge c).replies = s.replies := rfl

@[simp] theorem State.addAcc_cfg (c : Nat) (s : State) : (s.addAcc c).cfg = s.cfg := rfl
@[simp] theorem State.addAcc_a (c : Nat) (s : State) : (s.addAcc c).a = s.a := rfl
@[simp] theorem State.addAcc_x (c : Nat) (s : State) : (s.addAcc c).x = s.x := rfl
@[simp] theorem State.addAcc_y (c : Nat) (s : State) : (s.addAcc c).y = s.y := rfl
@[simp] theorem State.addAcc_sp (c : Nat) (s : State) : (s.addAcc c).sp = s.sp := rfl
@[simp] theorem State.addAcc_p (c : Nat) (s : State) : (s.addAcc c).p = s.p := rfl
@[simp] theorem State.addAcc_pc (c : Nat) (s : State) : (s.addAcc c).pc = s.pc := rfl
@[simp] theorem State.addAcc_mem (c : Nat) (s : State) : (s.addAcc c).mem = s.mem := rfl
@[simp] theorem State.addAcc_pat (c : Nat) (s : State) : (s.addAcc c).pat = s.pat := rfl
@[simp] theorem State.addAcc_nt (c : Nat) (s : State) : (s.addAcc c).nt = s.nt := rfl
@[simp] theorem State.addAcc_pal (c : Nat) (s : State) : (s.addAcc c).pal = s.pal := rfl
@[simp] theorem State.addAcc_fb (c : Nat) (s : State) : (s.addAcc c).fb = s.fb := rfl
@[simp] theorem State.addAcc_buttons (c : Nat) (s : State) : (s.addAcc c).buttons = s.buttons := rfl
@[simp] theorem State.addAcc_pend (c : Nat) (s : State) : (s.addAcc c).pend = s.pend := rfl
@[simp] theorem State.addAcc_cyc (c : Nat) (s : State) : (s.addAcc c).cyc = s.cyc := rfl
@[simp] theorem State.addAcc_acc (c : Nat) (s : State) : (s.addAcc c).acc = s.acc + c := rfl
@[simp] theorem State.addAcc_run (c : Nat) (s : State) : (s.addAcc c).run = s.run := rfl
@[simp] theorem State.addAcc_phase (c : Nat) (s : State) : (s.addAcc c).phase = s.phase := rfl
@[simp] theorem State.addAcc_budget (c : Nat) (s : State) : (s.addAcc c).budget = s.budget := rfl
@[simp] theorem State.addAcc_speed (c : Nat) (s : State) : (s.addAcc c).speed = s.speed := rfl
@[simp] theorem State.addAcc_cart (c : Nat) (s : State) : (s.addAcc c).cart = s.cart := rfl
@[simp] theorem State.addAcc_loaded (c : Nat) (s : State) : (s.addAcc c).loaded = s.loaded := rfl
@[simp] theorem State.addAcc_turns (c : Nat) (s : State) : (s.addAcc c).turns = s.turns := rfl
@[simp] theorem State.addAcc_replies (c : Nat) (s : State) : (s.addAcc c).replies = s.replies := rfl

@[simp] theorem State.setTurns_cfg (ts : List Turn) (s : State) : (s.setTurns ts).cfg = s.cfg := rfl
@[simp] theorem State.setTurns_a (ts : List Turn) (s : State) : (s.setTurns ts).a = s.a := rfl
@[simp] theorem State.setTurns_x (ts : List Turn) (s : State) : (s.setTurns ts).x = s.x := rfl
@[simp] theorem State.setTurns_y (ts : List Turn) (s : State) : (s.setTurns ts).y = s.y := rfl
@[simp] theorem State.setTurns_sp (ts : List Turn) (s : State) : (s.setTurns ts).sp = s.sp := rfl
@[simp] theorem State.setTurns_p (ts : List Turn) (s : State) : (s.setTurns ts).p = s.p := rfl
@[simp] theorem State.setTurns_pc (ts : List Turn) (s : State) : (s.setTurns ts).pc = s.pc := rfl
@[simp] theorem State.setTurns_mem (ts : List Turn) (s : State) : (s.setTurns ts).mem = s.mem := rfl
@[simp] theorem State.setTurns_pat (ts : List Turn) (s : State) : (s.setTurns ts).pat = s.pat := rfl
@[simp] theorem State.setTurns_nt (ts : List Turn) (s : State) : (s.setTurns ts).nt = s.nt := rfl
@[simp] theorem State.setTurns_pal (ts : List Turn) (s : State) : (s.setTurns ts).pal = s.pal := rfl
@[simp] theorem State.setTurns_fb (ts : List Turn) (s : State) : (s.setTurns ts).fb = s.fb := rfl
@[simp] theorem State.setTurns_buttons (ts : List Turn) (s : State) : (s.setTurns ts).buttons = s.buttons := rfl
@[simp] theorem State.setTurns_pend (ts : List Turn) (s : State) : (s.setTurns ts).pend = s.pend := rfl
@[simp] theorem State.setTurns_cyc (ts : List Turn) (s : State) : (s.setTurns ts).cyc = s.cyc := rfl
@[simp] theorem State.setTurns_acc (ts : List Turn) (s : State) : (s.setTurns ts).acc = s.acc := rfl
@[simp] theorem State.setTurns_run (ts : List Turn) (s : State) : (s.setTurns ts).run = s.run := rfl
@[simp] theorem State.setTurns_phase (ts : List Turn) (s : State) : (s.setTurns ts).phase = s.phase := rfl
@[simp] theorem State.setTurns_budget (ts : List Turn) (s : State) : (s.setTurns ts).budget = s.budget := rfl
@[simp] theorem State.setTurns_speed (ts : List Turn) (s : State) : (s.setTurns ts).speed = s.speed := rfl
@[simp] theorem State.setTurns_cart (ts : List Turn) (s : State) : (s.setTurns ts).cart = s.cart := rfl
@[simp] theorem State.setTurns_loaded (ts : List Turn) (s : State) : (s.setTurns ts).loaded = s.loaded := rfl
@[simp] theorem State.setTurns_turns (ts : List Turn) (s : State) : (s.setTurns ts).turns = ts := rfl
@[simp] theorem State.setTurns_replies (ts : List Turn) (s : State) : (s.setTurns ts).replies = s.replies := rfl

@[simp] theorem State.addReply_cfg (r : HostReply) (s : State) : (s.addReply r).cfg = s.cfg := rfl
@[simp] theorem State.addReply_a (r : HostReply) (s : State) : (s.addReply r).a = s.a := rfl
@[simp] theorem State.addReply_x (r : HostReply) (s : State) : (s.addReply r).x = s.x := rfl
@[simp] theorem State.addReply_y (r : HostReply) (s : State) : (s.addReply r).y = s.y := rfl
@[simp] theorem State.addReply_sp (r : HostReply) (s : State) : (s.addReply r).sp = s.sp := rfl
@[simp] theorem State.addReply_p (r : HostReply) (s : State) : (s.addReply r).p = s.p := rfl
@[simp] theorem State.addReply_pc (r : HostReply) (s : State) : (s.addReply r).pc = s.pc := rfl
@[simp] theorem State.addReply_mem (r : HostReply) (s : State) : (s.addReply r).mem = s.mem := rfl
@[simp] theorem State.addReply_pat (r : HostReply) (s : State) : (s.addReply r).pat = s.pat := rfl
@[simp] theorem State.addReply_nt (r : HostReply) (s : State) : (s.addReply r).nt = s.nt := rfl
@[simp] theorem State.addReply_pal (r : HostReply) (s : State) : (s.addReply r).pal = s.pal := rfl
@[simp] theorem State.addReply_fb (r : HostReply) (s : State) : (s.addReply r).fb = s.fb := rfl
@[simp] theorem State.addReply_buttons (r : HostReply) (s : State) : (s.addReply r).buttons = s.buttons := rfl
@[simp] theorem State.addReply_pend (r : HostReply) (s : State) : (s.addReply r).pend = s.pend := rfl
@[simp] theorem State.addReply_cyc (r : HostReply) (s : State) : (s.addReply r).cyc = s.cyc := rfl
@[simp] theorem State.addReply_acc (r : HostReply) (s : State) : (s.addReply r).acc = s.acc := rfl
@[simp] theorem State.addReply_run (r : HostReply) (s : State) : (s.addReply r).run = s.run := rfl
@[simp] theorem State.addReply_phase (r : HostReply) (s : State) : (s.addReply r).phase = s.phase := rfl
@[simp] theorem State.addReply_budget (r : HostReply) (s : State) : (s.addReply r).budget = s.budget := rfl
@[simp] theorem State.addReply_speed (r : HostReply) (s : State) : (s.addReply r).speed = s.speed := rfl
@[simp] theorem State.addReply_cart (r : HostReply) (s : State) : (s.addReply r).cart = s.cart := rfl
@[simp] theorem State.addReply_loaded (r : HostReply) (s : State) : (s.addReply r).loaded = s.loaded := rfl
@[simp] theorem State.addReply_turns (r : HostReply) (s : State) : (s.addReply r).turns = s.turns := rfl
@[simp] theorem State.addReply_replies (r : HostReply) (s : State) : (s.addReply r).replies = r :: s.replies := rfl

end Sys2Proof.Machine
end

