-- ==== Sys2Proof/Laws/Ops.lean ====
section
/-! SUPPORT. One lemma for each shared operation: what it changes, and that it changes nothing else. -/

namespace Sys2Proof.Machine

/-- A CPU write changes nothing but M. -/
theorem memWrite_eq (a : Addr) (v : Byte) (s : State) : memWrite a v s = s.setMem (memWrite a v s).mem := by
  unfold memWrite
  split <;> rfl

@[simp] theorem memWrite_cfg (a : Addr) (v : Byte) (s : State) : (memWrite a v s).cfg = s.cfg := by
  rw [memWrite_eq]; rfl
@[simp] theorem memWrite_a (a : Addr) (v : Byte) (s : State) : (memWrite a v s).a = s.a := by
  rw [memWrite_eq]; rfl
@[simp] theorem memWrite_x (a : Addr) (v : Byte) (s : State) : (memWrite a v s).x = s.x := by
  rw [memWrite_eq]; rfl
@[simp] theorem memWrite_y (a : Addr) (v : Byte) (s : State) : (memWrite a v s).y = s.y := by
  rw [memWrite_eq]; rfl
@[simp] theorem memWrite_sp (a : Addr) (v : Byte) (s : State) : (memWrite a v s).sp = s.sp := by
  rw [memWrite_eq]; rfl
@[simp] theorem memWrite_p (a : Addr) (v : Byte) (s : State) : (memWrite a v s).p = s.p := by
  rw [memWrite_eq]; rfl
@[simp] theorem memWrite_pc (a : Addr) (v : Byte) (s : State) : (memWrite a v s).pc = s.pc := by
  rw [memWrite_eq]; rfl
@[simp] theorem memWrite_pat (a : Addr) (v : Byte) (s : State) : (memWrite a v s).pat = s.pat := by
  rw [memWrite_eq]; rfl
@[simp] theorem memWrite_nt (a : Addr) (v : Byte) (s : State) : (memWrite a v s).nt = s.nt := by
  rw [memWrite_eq]; rfl
@[simp] theorem memWrite_pal (a : Addr) (v : Byte) (s : State) : (memWrite a v s).pal = s.pal := by
  rw [memWrite_eq]; rfl
@[simp] theorem memWrite_fb (a : Addr) (v : Byte) (s : State) : (memWrite a v s).fb = s.fb := by
  rw [memWrite_eq]; rfl
@[simp] theorem memWrite_buttons (a : Addr) (v : Byte) (s : State) : (memWrite a v s).buttons = s.buttons := by
  rw [memWrite_eq]; rfl
@[simp] theorem memWrite_pend (a : Addr) (v : Byte) (s : State) : (memWrite a v s).pend = s.pend := by
  rw [memWrite_eq]; rfl
@[simp] theorem memWrite_cyc (a : Addr) (v : Byte) (s : State) : (memWrite a v s).cyc = s.cyc := by
  rw [memWrite_eq]; rfl
@[simp] theorem memWrite_acc (a : Addr) (v : Byte) (s : State) : (memWrite a v s).acc = s.acc := by
  rw [memWrite_eq]; rfl
@[simp] theorem memWrite_run (a : Addr) (v : Byte) (s : State) : (memWrite a v s).run = s.run := by
  rw [memWrite_eq]; rfl
@[simp] theorem memWrite_phase (a : Addr) (v : Byte) (s : State) : (memWrite a v s).phase = s.phase := by
  rw [memWrite_eq]; rfl
@[simp] theorem memWrite_budget (a : Addr) (v : Byte) (s : State) : (memWrite a v s).budget = s.budget := by
  rw [memWrite_eq]; rfl
@[simp] theorem memWrite_speed (a : Addr) (v : Byte) (s : State) : (memWrite a v s).speed = s.speed := by
  rw [memWrite_eq]; rfl
@[simp] theorem memWrite_cart (a : Addr) (v : Byte) (s : State) : (memWrite a v s).cart = s.cart := by
  rw [memWrite_eq]; rfl
@[simp] theorem memWrite_loaded (a : Addr) (v : Byte) (s : State) : (memWrite a v s).loaded = s.loaded := by
  rw [memWrite_eq]; rfl
@[simp] theorem memWrite_turns (a : Addr) (v : Byte) (s : State) : (memWrite a v s).turns = s.turns := by
  rw [memWrite_eq]; rfl
@[simp] theorem memWrite_replies (a : Addr) (v : Byte) (s : State) : (memWrite a v s).replies = s.replies := by
  rw [memWrite_eq]; rfl

/-- M after a CPU write: the byte stored, or M as it was where the address is not storable. -/
theorem memWrite_mem (a : Addr) (v : Byte) (s : State) :
    (memWrite a v s).mem = if storable s.cfg a then Memory.write s.mem a.toNat v else s.mem := by
  unfold memWrite
  split <;> rfl

/-- Where a CPU write is stored (20_memory.md R54). -/
theorem storable_iff {c : Config} {a : Addr} :
    storable c a = true ↔ c.prgWindowWritable = true ∨ a.toNat < 0x8000 := by
  unfold storable inWindow
  rw [Bool.or_eq_true, Bool.not_eq_true', decide_eq_false_iff_not]
  simp

/-- A byte of M after a CPU write. -/
theorem memRead_memWrite {a b : Addr} {v : Byte} {s : State} (hm : Memory.wf memSize s.mem = true) :
    memRead (memWrite a v s) b = if a = b ∧ storable s.cfg a = true then v else memRead s b := by
  unfold memRead
  rw [memWrite_mem]
  by_cases hs : storable s.cfg a = true
  · rw [if_pos hs, Memory.read_write hm]
    by_cases hab : a = b
    · rw [if_pos (by rw [hab]), if_pos ⟨hab, hs⟩]
    · rw [if_neg (fun h => hab (BitVec.eq_of_toNat_eq h)), if_neg (fun h => hab h.1)]
  · rw [if_neg hs, if_neg (fun h => hs h.2)]

/-- M after a CPU write depends on the configuration and M only. -/
theorem memWrite_mem_congr {a : Addr} {v : Byte} {s s' : State} (hc : s.cfg = s'.cfg) (hm : s.mem = s'.mem) :
    (memWrite a v s).mem = (memWrite a v s').mem := by
  rw [memWrite_mem, memWrite_mem, hc, hm]

/-- A byte of M after a write that ignores PRG_WINDOW_WRITABLE. -/
theorem memRead_pokeByte {a b : Addr} {v : Byte} {s : State} (hm : Memory.wf memSize s.mem = true) :
    memRead (pokeByte a v s) b = if a = b then v else memRead s b := by
  unfold memRead pokeByte
  rw [State.setMem_mem, Memory.read_write hm]
  by_cases hab : a = b
  · rw [if_pos (by rw [hab]), if_pos hab]
  · rw [if_neg (fun h => hab (BitVec.eq_of_toNat_eq h)), if_neg hab]

theorem pokeByte_wf {a : Addr} {v : Byte} {s : State} (hm : Memory.wf memSize s.mem = true) :
    Memory.wf memSize (pokeByte a v s).mem = true :=
  Memory.write_wf a.isLt hm

theorem memWrite_wf {a : Addr} {v : Byte} {s : State} (hm : Memory.wf memSize s.mem = true) :
    Memory.wf memSize (memWrite a v s).mem = true := by
  unfold memWrite
  split
  · exact pokeByte_wf hm
  · exact hm

/-- A push changes nothing but M and S. -/
theorem push_eq (v : Byte) (s : State) : push v s = (s.setMem (push v s).mem).setSp (s.sp - 1) := by
  unfold push
  rw [memWrite_eq]
  rfl

@[simp] theorem push_sp (v : Byte) (s : State) : (push v s).sp = s.sp - 1 := rfl

theorem push_mem (v : Byte) (s : State) : (push v s).mem = (memWrite (stackAddr s.cfg s.sp) v s).mem := rfl

/-- A byte of M after a push. -/
theorem memRead_push {b : Addr} {v : Byte} {s : State} (hm : Memory.wf memSize s.mem = true) :
    memRead (push v s) b =
      if stackAddr s.cfg s.sp = b ∧ storable s.cfg (stackAddr s.cfg s.sp) = true then v else memRead s b :=
  memRead_memWrite hm

theorem push_wf {v : Byte} {s : State} (hm : Memory.wf memSize s.mem = true) :
    Memory.wf memSize (push v s).mem = true :=
  memWrite_wf (a := stackAddr s.cfg s.sp) hm

@[simp] theorem push_cfg (v : Byte) (s : State) : (push v s).cfg = s.cfg := by
  rw [push_eq]; rfl
@[simp] theorem push_a (v : Byte) (s : State) : (push v s).a = s.a := by
  rw [push_eq]; rfl
@[simp] theorem push_x (v : Byte) (s : State) : (push v s).x = s.x := by
  rw [push_eq]; rfl
@[simp] theorem push_y (v : Byte) (s : State) : (push v s).y = s.y := by
  rw [push_eq]; rfl
@[simp] theorem push_p (v : Byte) (s : State) : (push v s).p = s.p := by
  rw [push_eq]; rfl
@[simp] theorem push_pc (v : Byte) (s : State) : (push v s).pc = s.pc := by
  rw [push_eq]; rfl
@[simp] theorem push_pat (v : Byte) (s : State) : (push v s).pat = s.pat := by
  rw [push_eq]; rfl
@[simp] theorem push_nt (v : Byte) (s : State) : (push v s).nt = s.nt := by
  rw [push_eq]; rfl
@[simp] theorem push_pal (v : Byte) (s : State) : (push v s).pal = s.pal := by
  rw [push_eq]; rfl
@[simp] theorem push_fb (v : Byte) (s : State) : (push v s).fb = s.fb := by
  rw [push_eq]; rfl
@[simp] theorem push_buttons (v : Byte) (s : State) : (push v s).buttons = s.buttons := by
  rw [push_eq]; rfl
@[simp] theorem push_pend (v : Byte) (s : State) : (push v s).pend = s.pend := by
  rw [push_eq]; rfl
@[simp] theorem push_cyc (v : Byte) (s : State) : (push v s).cyc = s.cyc := by
  rw [push_eq]; rfl
@[simp] theorem push_acc (v : Byte) (s : State) : (push v s).acc = s.acc := by
  rw [push_eq]; rfl
@[simp] theorem push_run (v : Byte) (s : State) : (push v s).run = s.run := by
  rw [push_eq]; rfl
@[simp] theorem push_phase (v : Byte) (s : State) : (push v s).phase = s.phase := by
  rw [push_eq]; rfl
@[simp] theorem push_budget (v : Byte) (s : State) : (push v s).budget = s.budget := by
  rw [push_eq]; rfl
@[simp] theorem push_speed (v : Byte) (s : State) : (push v s).speed = s.speed := by
  rw [push_eq]; rfl
@[simp] theorem push_cart (v : Byte) (s : State) : (push v s).cart = s.cart := by
  rw [push_eq]; rfl
@[simp] theorem push_loaded (v : Byte) (s : State) : (push v s).loaded = s.loaded := by
  rw [push_eq]; rfl
@[simp] theorem push_turns (v : Byte) (s : State) : (push v s).turns = s.turns := by
  rw [push_eq]; rfl
@[simp] theorem push_replies (v : Byte) (s : State) : (push v s).replies = s.replies := by
  rw [push_eq]; rfl

/-- Two stack pointers name two addresses. -/
theorem stackAddr_ne {c : Config} {x y : Byte} (h : x ≠ y) : stackAddr c x ≠ stackAddr c y := by
  intro e
  apply h
  have hw : x.setWidth 16 = y.setWidth 16 := by
    have := congrArg (fun z => z - c.stackBase) e
    simpa [stackAddr, BitVec.add_comm c.stackBase, BitVec.add_sub_cancel] using this
  apply BitVec.eq_of_toNat_eq
  have := congrArg BitVec.toNat hw
  simp only [BitVec.toNat_setWidth] at this
  omega

/-- Three pushes go down by three. -/
theorem sp_sub_three (x : Byte) : x - 1 - 1 = x - 2 ∧ x - 1 - 1 - 1 = x - 3 := ⟨by bv_omega, by bv_omega⟩

/-- The three stack pointers of interrupt service are different. -/
theorem sp_pushes_ne (x : Byte) : x ≠ x - 1 ∧ x ≠ x - 2 ∧ x - 1 ≠ x - 2 := ⟨by bv_omega, by bv_omega, by bv_omega⟩

/-- Completing an instruction changes nothing but PC and CYC. -/
theorem complete_eq (h : Handler) (s : State) :
    complete h s = (s.setPc (s.pc + BitVec.ofNat 16 h.length)).charge h.cost := rfl

/-- The state after the three pushes of interrupt service. -/
def savedContext (s : State) : State := push (nmiPushedP s.cfg s.p) (push (loByte s.pc) (push (hiByte s.pc) s))

/-- M after the three pushes depends on the configuration, M, S, P and PC only. -/
theorem savedContext_mem_congr {s s' : State} (hc : s.cfg = s'.cfg) (hm : s.mem = s'.mem) (hs : s.sp = s'.sp)
    (hp : s.p = s'.p) (hpc : s.pc = s'.pc) : (savedContext s).mem = (savedContext s').mem := by
  unfold savedContext
  rw [push_mem, push_mem]
  simp only [push_cfg, push_sp, hc, hs, hp, hpc]
  refine memWrite_mem_congr (by simp [hc]) ?_
  rw [push_mem, push_mem]
  simp only [push_cfg, push_sp, hc, hs]
  refine memWrite_mem_congr (by simp [hc]) ?_
  rw [push_mem, push_mem, hc, hs]
  exact memWrite_mem_congr hc hm

/-- Interrupt service changes M by three pushes, S by 3, PC, P, PEND and CYC, and nothing else. -/
theorem interruptService_eq (s : State) :
    interruptService s =
      { s with
        mem := (savedContext s).mem, sp := s.sp - 1 - 1 - 1, pc := memRead16 (savedContext s) nmiVector,
        p := setI s.cfg s.p, pend := false, cyc := s.cyc + interruptCost } := by
  have hi : interruptService s =
      ((((savedContext s).setPc (memRead16 (savedContext s) nmiVector)).setP (setI s.cfg s.p)).setPend
        false).charge interruptCost := rfl
  have h : savedContext s = (s.setMem (savedContext s).mem).setSp (s.sp - 1 - 1 - 1) := by
    unfold savedContext
    rw [push_eq, push_eq, push_eq]
    rfl
  rw [hi]
  generalize memRead16 (savedContext s) nmiVector = target
  generalize savedContext s = saved at h ⊢
  generalize saved.mem = m at h ⊢
  subst h
  rfl

/-- M after interrupt service is M after its three pushes. -/
theorem memRead_interruptService (s : State) (b : Addr) :
    memRead (interruptService s) b = memRead (savedContext s) b := by
  unfold memRead
  rw [interruptService_eq]

/-- A byte of M after the three pushes: the status, PC-low, PC-high, or the byte as it was. -/
theorem memRead_savedContext {s : State} (hm : Memory.wf memSize s.mem = true) (b : Addr) :
    memRead (savedContext s) b =
      if stackAddr s.cfg (s.sp - 1 - 1) = b ∧ storable s.cfg (stackAddr s.cfg (s.sp - 1 - 1)) = true
      then nmiPushedP s.cfg s.p
      else if stackAddr s.cfg (s.sp - 1) = b ∧ storable s.cfg (stackAddr s.cfg (s.sp - 1)) = true
      then loByte s.pc
      else if stackAddr s.cfg s.sp = b ∧ storable s.cfg (stackAddr s.cfg s.sp) = true then hiByte s.pc
      else memRead s b := by
  have w1 := push_wf (v := hiByte s.pc) hm
  have w2 := push_wf (v := loByte s.pc) w1
  rw [savedContext, memRead_push w2]
  simp only [push_sp, push_cfg]
  rw [memRead_push w1]
  simp only [push_sp, push_cfg]
  rw [memRead_push hm]

theorem savedContext_wf {s : State} (hm : Memory.wf memSize s.mem = true) :
    Memory.wf memSize (savedContext s).mem = true :=
  push_wf (push_wf (push_wf hm))

end Sys2Proof.Machine
end

