-- ==== Sys2Proof/Laws/Exec.lean ====
section
/-! SUPPORT. What executing an instruction and what a CPU step can do, said once. -/

namespace Sys2Proof.Machine

/-- Every instruction completes, from every state. -/
theorem exec_total (i : Instr) (s : State) : ∃ t, exec i s = .next t := by
  cases i <;> exact ⟨_, rfl⟩

/-- The frame of every instruction at once: only A, P, PC and M can change, beside the cost added to CYC. -/
theorem exec_changes {i : Instr} {s t : State} (h : exec i s = .next t) :
    t = { s with a := t.a, p := t.p, pc := t.pc, mem := t.mem, cyc := s.cyc + i.cost } := by
  cases i with
  | ldaImm v => cases h; rfl
  | ldaAbs ea => cases h; rfl
  | staAbs ea =>
    cases h
    have hw := memWrite_eq ea s.a s
    unfold storeAbs
    generalize memWrite ea s.a s = u at hw ⊢
    generalize u.mem = m at hw
    subst hw
    rfl
  | jmpAbs ea => cases h; rfl
  | unimpl op => cases h; rfl

/-- Only the store changes M, by one CPU write. -/
theorem exec_mem {i : Instr} {s t : State} (h : exec i s = .next t) :
    t.mem = match i with
      | .staAbs ea => (memWrite ea s.a s).mem
      | .ldaImm _ => s.mem
      | .ldaAbs _ => s.mem
      | .jmpAbs _ => s.mem
      | .unimpl _ => s.mem := by
  cases i <;> cases h <;> rfl

theorem exec_mem_wf {i : Instr} {s t : State} (h : exec i s = .next t) (hm : Memory.wf memSize s.mem = true) :
    Memory.wf memSize t.mem = true := by
  rw [exec_mem h]
  cases i with
  | staAbs ea => exact memWrite_wf hm
  | _ => exact hm

/-- Every instruction costs at least 2 and at most 4 cycles (41_cpu_step.md R126). -/
theorem cost_bounds (i : Instr) : 2 ≤ i.cost ∧ i.cost ≤ 4 := by
  cases i <;> simp [Instr.cost, Instr.handler, Handler.cost]

/-- A fetch always finds an instruction, and runs it. -/
theorem normalFetch_cases (s : State) :
    ∃ i rest t, decode s.cfg (fetchBytes s) = .ok (i, rest) ∧ exec i s = .next t ∧
      normalFetch s = .next (t, i.cost) := by
  obtain ⟨i, rest, hd⟩ := decode_three_total s.cfg (memRead s s.pc) (memRead s (s.pc + 1)) (memRead s (s.pc + 2))
  obtain ⟨t, ht⟩ := exec_total i s
  refine ⟨i, rest, t, hd, ht, ?_⟩
  unfold normalFetch
  rw [show decode s.cfg (fetchBytes s) = _ from hd]
  simp [swallowFault, ht]

/-- A CPU step is interrupt service when PEND is set, and otherwise the instruction at PC (41_cpu_step.md R120). -/
theorem cpuStep_cases (s : State) :
    (s.pend = true ∧ cpuStep s = .next (interruptService s, interruptCost)) ∨
    (s.pend = false ∧ ∃ i rest t, decode s.cfg (fetchBytes s) = .ok (i, rest) ∧ exec i s = .next t ∧
      cpuStep s = .next (t, i.cost)) := by
  cases hp : s.pend with
  | true => exact .inl ⟨rfl, by simp [cpuStep, hp]⟩
  | false =>
    obtain ⟨i, rest, t, hd, ht, hf⟩ := normalFetch_cases s
    exact .inr ⟨rfl, i, rest, t, hd, ht, by simp [cpuStep, hp, hf]⟩

/-- The frame of every CPU step at once, and the bounds of its cost (41_cpu_step.md R126, R127). -/
theorem cpuStep_changes {s t : State} {c : Nat} (h : cpuStep s = .next (t, c)) :
    t = { s with a := t.a, p := t.p, pc := t.pc, sp := t.sp, mem := t.mem, pend := false, cyc := s.cyc + c } ∧
      2 ≤ c ∧ c ≤ 7 := by
  rcases cpuStep_cases s with ⟨hp, hc⟩ | ⟨hp, i, rest, u, hd, hu, hc⟩
  · rw [hc] at h
    cases h
    refine ⟨?_, by decide, by decide⟩
    rw [interruptService_eq]
  · rw [hc] at h
    cases h
    have hb := cost_bounds i
    refine ⟨?_, hb.1, by omega⟩
    have hx := exec_changes hu
    rw [hx, ← hp]

theorem cpuStep_mem_wf {s t : State} {c : Nat} (h : cpuStep s = .next (t, c))
    (hm : Memory.wf memSize s.mem = true) : Memory.wf memSize t.mem = true := by
  rcases cpuStep_cases s with ⟨hp, hc⟩ | ⟨hp, i, rest, u, hd, hu, hc⟩
  · rw [hc] at h
    cases h
    rw [interruptService_eq]
    exact savedContext_wf hm
  · rw [hc] at h
    cases h
    exact exec_mem_wf hu hm

/-- Every CPU step answers a next state: no fault and no refusal comes out of one (60_exceptions.md R208). -/
theorem cpuStep_total (s : State) : ∃ t c, cpuStep s = .next (t, c) := by
  rcases cpuStep_cases s with ⟨_, hc⟩ | ⟨_, i, _, t, _, _, hc⟩
  · exact ⟨_, _, hc⟩
  · exact ⟨_, _, hc⟩

end Sys2Proof.Machine
end

