-- ==== Sys2Proof/Laws/Params.lean ====
section
/-! SUPPORT. The parameters of R7 that are functions: their values, and that no function is left out. -/

namespace Sys2Proof

/-- R7's value of NMI_PUSHED_P is the identity (D4). -/
theorem nmiPushedP_taken (p : Byte) : nmiPushedP Config.taken p = p := rfl

/-- R7's value of MAPPER_ID (D11). -/
theorem mapperId_taken (b6 b7 : Byte) : mapperId Config.taken b6 b7 = (b7 &&& 0xF0) ||| (b6 >>> 4) := rfl

/-- An expression for each value of one argument, put together. -/
def ByteExpr.ofCases {n : Nat} (i : Fin n) (f : Byte → ByteExpr n) : List Byte → ByteExpr n
  | [] => .const 0
  | v :: vs => .ifArg i v (f v) (ByteExpr.ofCases i f vs)

theorem ByteExpr.eval_ofCases {n : Nat} {i : Fin n} {f : Byte → ByteExpr n} {args : Fin n → Byte} {vs : List Byte}
    (h : args i ∈ vs) : (ByteExpr.ofCases i f vs).eval args = (f (args i)).eval args := by
  induction vs with
  | nil => cases h
  | cons v vs ih =>
    rw [ByteExpr.ofCases, ByteExpr.eval]
    split
    · next hv => rw [hv]
    · next hv => exact ih ((List.mem_cons.mp h).resolve_left hv)

/-- Every byte. -/
def allBytes : List Byte := (List.range 256).map (BitVec.ofNat 8)

theorem mem_allBytes (v : Byte) : v ∈ allBytes :=
  List.mem_map.mpr ⟨v.toNat, List.mem_range.mpr v.isLt, by simp⟩

/-- Every function of a byte is a value of the parameter NMI_PUSHED_P. -/
theorem every_unary_is_byteExpr (f : Byte → Byte) : ∃ e : ByteExpr 1, ∀ p, e.eval (fun _ => p) = f p :=
  ⟨.ofCases 0 (fun v => .const (f v)) allBytes, fun p => ByteExpr.eval_ofCases (mem_allBytes p)⟩

/-- Every function of two bytes is a value of the parameter MAPPER_ID. -/
theorem every_binary_is_byteExpr (f : Byte → Byte → Byte) :
    ∃ e : ByteExpr 2, ∀ b6 b7, e.eval (fun i => if i = 0 then b6 else b7) = f b6 b7 :=
  ⟨.ofCases 0 (fun v => .ofCases 1 (fun u => .const (f v u)) allBytes) allBytes, fun b6 b7 =>
    (ByteExpr.eval_ofCases (mem_allBytes b6)).trans (ByteExpr.eval_ofCases (mem_allBytes b7))⟩

end Sys2Proof
end

