-- ==== Sys2Proof/Laws/PerInstr.lean ====
section
/-! SUPPORT. Per-instruction families of facts about the instruction as syntax. -/

namespace Sys2Proof.Laws.EncodedLength

/-- The encoding of an instruction has the length the dispatch table gives it (30_encoding.md R80 to R83). -/
def Statement (i : Instr) : Prop := ∀ c : Config, (encode c i).length = i.length

theorem ldaImm (imm8 : Byte) : Statement (.ldaImm imm8) := fun _ => rfl
theorem ldaAbs (addr16 : Addr) : Statement (.ldaAbs addr16) := fun _ => rfl
theorem staAbs (addr16 : Addr) : Statement (.staAbs addr16) := fun _ => rfl
theorem jmpAbs (addr16 : Addr) : Statement (.jmpAbs addr16) := fun _ => rfl
theorem unimpl (opcode : Byte) : Statement (.unimpl opcode) := fun _ => rfl

end Sys2Proof.Laws.EncodedLength
end

