-- ==== Sys2Proof/Laws/Picture.lean ====
section
/-! SUPPORT. The rasterizer: one entry, and what the picture depends on. -/

namespace Sys2Proof.Machine

/-- Every entry of the framebuffer after a rasterize (44_picture_unit.md R157). -/
theorem frameOf_read (s : State) (i : Nat) :
    Memory.read (frameOf s) i = if i < fbSize then colourAt s (i / fbWidth) (i % fbWidth) else 0#6 := by
  unfold frameOf
  rw [Memory.read_tabulate]
  by_cases hi : i < fbSize
  · rw [if_pos (by omega), if_pos hi]
  · rw [if_neg (by omega), if_neg hi]

/-- The framebuffer a rasterize leaves is in canonical form. -/
theorem frameOf_wf (s : State) : Memory.wf fbSize (frameOf s) = true := by
  unfold frameOf
  exact Memory.tabulate_wf

/-- A rasterize leaves the computed frame in FB. -/
theorem rasterize_fb (s : State) : (rasterize s).fb = frameOf s := rfl

/-- The entry in row `y` and column `x` after a rasterize. -/
theorem rasterize_entry (s : State) {y x : Nat} (hy : y < 240) (hx : x < 256) :
    Memory.read (rasterize s).fb (fbIndex y x) = colourAt s y x := by
  have h1 : (256 * y + x) / 256 = y := by omega
  have h2 : (256 * y + x) % 256 = x := by omega
  rw [rasterize_fb, frameOf_read, if_pos (by simp only [fbIndex, fbWidth, fbSize]; omega)]
  simp only [fbIndex, fbWidth, h1, h2]

/-- An entry depends on NT, PAT, the palette source and, only with `palette_memory`, on PAL
(44_picture_unit.md R158). -/
theorem colourAt_congr {s s' : State} (hn : s.nt = s'.nt) (hp : s.pat = s'.pat)
    (hc : s.cfg.paletteSource = s'.cfg.paletteSource)
    (hl : s.cfg.paletteSource = .patternSpace ∨ s.pal = s'.pal) (y x : Nat) : colourAt s y x = colourAt s' y x := by
  unfold colourAt paletteRead pixelAt
  rw [hn, hp, ← hc]
  rcases hl with h | h <;> rw [h]

/-- The picture depends on the same. -/
theorem frameOf_congr {s s' : State} (hn : s.nt = s'.nt) (hp : s.pat = s'.pat)
    (hc : s.cfg.paletteSource = s'.cfg.paletteSource)
    (hl : s.cfg.paletteSource = .patternSpace ∨ s.pal = s'.pal) : frameOf s = frameOf s' := by
  unfold frameOf
  congr 1
  funext i
  exact colourAt_congr hn hp hc hl ..

/-- The picture does not depend on where the sequencer stands. -/
theorem frameOf_sequencer (s : State) (budget acc : Nat) (run : Bool) (phase : Phase) (turns : List Turn) :
    frameOf { s with budget := budget, acc := acc, run := run, phase := phase, turns := turns } = frameOf s :=
  frameOf_congr rfl rfl rfl (.inr rfl)

/-- A table of zeros lists nothing. -/
theorem tabulate_zeros {w : Nat} (f : Nat → BitVec w) (n base : Nat)
    (h : ∀ i, base ≤ i → i < base + n → f i = 0#w) : Memory.tabulate f base n = [] := by
  induction n generalizing base with
  | zero => rfl
  | succ n ih =>
    rw [Memory.tabulate, ih (base + 1) (fun i a b => h i (by omega) (by omega)), h base (by omega) (by omega)]
    simp [Memory.consCell, Memory.unlisted]

/-- A picture whose every entry is 0 lists nothing. -/
theorem frameOf_eq_nil {s : State} (h : ∀ y x, colourAt s y x = 0#6) : frameOf s = [] := by
  unfold frameOf
  exact tabulate_zeros _ _ _ (fun i _ _ => h _ _)

/-- A pixel value is 0, 1, 2 or 3 (44_picture_unit.md R155). -/
theorem pixelValue_lt (lo hi : Byte) (c : Nat) : pixelValue lo hi c < 4 := by
  unfold pixelValue
  cases lo.getLsbD (7 - c) <;> cases hi.getLsbD (7 - c) <;> decide

end Sys2Proof.Machine
end

