-- ==== Sys2Proof/Laws/Ports.lean ====
section
/-! SUPPORT. The ports: what each host action can do, said once, and the snapshot's round trip. -/

namespace Sys2Proof.Machine

/-- A host action never faults, and only a button index outside 0..7 is refused (45_input_latch.md R172). -/
theorem hostAction_total (action : HostAction) (s : State) :
    (∃ u r, hostAction action s = .next (u, r)) ∨
    (∃ b pressed, action = .setKey b pressed ∧ 8 ≤ b ∧ hostAction action s = .refused (.buttonOutOfRange b)) := by
  cases action with
  | setKey b pressed =>
    by_cases hb : b < 8
    · exact .inl ⟨_, _, by simp only [hostAction, dif_pos hb]; rfl⟩
    · exact .inr ⟨b, pressed, rfl, by omega, by simp only [hostAction, dif_neg hb]⟩
  | _ => exact .inl ⟨_, _, rfl⟩

/-- What a host action that completes did, port by port (60_exceptions.md R228). -/
theorem hostAction_cases {action : HostAction} {s u : State} {r : HostReply}
    (h : hostAction action s = .next (u, r)) :
    (∃ bytes cart, action = .load bytes ∧ parseCart s.cfg bytes = .ok cart ∧ u = loadCommit cart s ∧ r = .ok) ∨
    (∃ bytes reason, action = .load bytes ∧ parseCart s.cfg bytes = .error reason ∧ u = s) ∨
    (∃ b hb pressed, action = .setKey b pressed ∧ u = setKey ⟨b, hb⟩ pressed s) ∨
    (action = .capture ∧ u = s) ∨
    (∃ n, action = .restore (.record n) ∧ n.wf = true ∧ u = restoreCommit n s) ∨
    (∃ input, action = .restore input ∧ u = s) ∨
    (action = .readFb ∧ u = s) ∨
    (action = .rasterize ∧ u = rasterize s) ∨
    (action = .start ∧ u = setRun true s) ∨
    (action = .stop ∧ u = setRun false s) ∨
    (∃ q, action = .setSpeed q ∧ u = setSpeed q s) ∨
    (action = .seqFault ∧ u = s.setPhase .faulted) := by
  cases action with
  | load bytes =>
    simp only [hostAction] at h
    rcases load_cases bytes s with ⟨cart, hp, hl⟩ | ⟨reason, hp, hl⟩ <;> rw [hl] at h <;> cases h
    · exact .inl ⟨_, _, rfl, hp, rfl, rfl⟩
    · exact .inr (.inl ⟨_, _, rfl, hp, rfl⟩)
  | setKey b pressed =>
    simp only [hostAction] at h
    split at h <;> cases h
    exact .inr (.inr (.inl ⟨_, _, _, rfl, rfl⟩))
  | restore input =>
    simp only [hostAction, restore] at h
    cases input with
    | record n =>
      dsimp only at h
      split at h <;> cases h
      · next hn => exact .inr (.inr (.inr (.inr (.inl ⟨n, rfl, hn, rfl⟩))))
      · exact .inr (.inr (.inr (.inr (.inr (.inl ⟨_, rfl, rfl⟩)))))
    | undecodable =>
      cases h
      exact .inr (.inr (.inr (.inr (.inr (.inl ⟨_, rfl, rfl⟩)))))
  | capture => cases h; simp
  | readFb => cases h; simp
  | rasterize => cases h; simp
  | start => cases h; simp
  | stop => cases h; simp
  | setSpeed q => cases h; simp
  | seqFault => cases h; simp

/-- `SetKey` changes IN and M only (45_input_latch.md R170, R171). -/
theorem setKey_changes (b : Fin 8) (pressed : Bool) (s : State) :
    setKey b pressed s = { s with buttons := (setKey b pressed s).buttons, mem := (setKey b pressed s).mem } := by
  unfold setKey
  split <;> rfl

theorem setKey_buttons (b : Fin 8) (pressed : Bool) (s : State) :
    (setKey b pressed s).buttons = s.buttons.set b pressed := by
  unfold setKey
  split <;> rfl

theorem setKey_wf {b : Fin 8} {pressed : Bool} {s : State} (h : Memory.wf memSize s.mem = true) :
    Memory.wf memSize (setKey b pressed s).mem = true := by
  unfold setKey
  split
  · exact pokeByte_wf (s := setButton b pressed s) h
  · exact h

/-- No host action writes a parameter or an earlier reply. -/
theorem hostAction_keeps {action : HostAction} {s u : State} {r : HostReply}
    (h : hostAction action s = .next (u, r)) : u.cfg = s.cfg ∧ u.replies = s.replies ∧ u.turns = s.turns := by
  rcases hostAction_cases h with ⟨_, _, _, _, rfl, _⟩ | ⟨_, _, _, _, rfl⟩ | ⟨_, _, _, _, rfl⟩ | ⟨_, rfl⟩ |
    ⟨_, _, _, rfl⟩ | ⟨_, _, rfl⟩ | ⟨_, rfl⟩ | ⟨_, rfl⟩ | ⟨_, rfl⟩ | ⟨_, rfl⟩ | ⟨_, _, rfl⟩ | ⟨_, rfl⟩
  case inr.inr.inl =>
    rw [setKey_changes]
    exact ⟨rfl, rfl, rfl⟩
  all_goals exact ⟨rfl, rfl, rfl⟩

theorem arrayOk_iff {size bound : Nat} {l : List Nat} :
    arrayOk size bound l = true ↔ l.length = size ∧ ∀ v ∈ l, v < bound := by
  unfold arrayOk
  rw [Bool.and_eq_true, beq_iff_eq, List.all_eq_true]
  simp

/-- The check of a snapshot is its shape (46_snapshot.md R184). -/
theorem snapshot_wf_iff (n : Snapshot) : n.wf = true ↔ n.HasShape := by
  unfold Snapshot.wf
  simp only [Bool.and_eq_true, arrayOk_iff, decide_eq_true_eq]
  constructor
  · rintro ⟨⟨⟨⟨⟨⟨⟨⟨⟨⟨⟨⟨h1, h2⟩, h3⟩, h4⟩, h5⟩, h6⟩, h7⟩, h8⟩, h9⟩, h10⟩, h11⟩, h12⟩, h13⟩
    refine ⟨⟨h1, h2, h3, h4, h5, h6⟩, ⟨h7.1, h8.1, h9.1, h10.1⟩, ?_, h11,
      ⟨h12.1, fun v hv => by have := h12.2 v hv; omega⟩, by omega⟩
    intro v hv
    simp only [List.mem_append] at hv
    rcases hv with ((hv | hv) | hv) | hv
    · exact h7.2 v hv
    · exact h8.2 v hv
    · exact h9.2 v hv
    · exact h10.2 v hv
  · rintro ⟨⟨h1, h2, h3, h4, h5, h6⟩, ⟨h7, h8, h9, h10⟩, h, h11, ⟨h12, h12'⟩, h13⟩
    simp only [List.mem_append] at h
    exact ⟨⟨⟨⟨⟨⟨⟨⟨⟨⟨⟨⟨h1, h2⟩, h3⟩, h4⟩, h5⟩, h6⟩, h7, fun v hv => h v (.inl (.inl (.inl hv)))⟩, h8,
      fun v hv => h v (.inl (.inl (.inr hv)))⟩, h9, fun v hv => h v (.inl (.inr hv))⟩, h10,
      fun v hv => h v (.inr hv)⟩, h11⟩, h12, fun v hv => by rcases h12' v hv with h | h <;> omega⟩, by omega⟩

/-- An array in canonical form comes back from its values. -/
theorem arrayIn_arrayOut {w size : Nat} {m : Memory w} (h : Memory.wf size m = true) :
    arrayIn w (arrayOut size m) = m := by
  unfold arrayIn arrayOut
  rw [List.map_map, show (BitVec.ofNat w ∘ BitVec.toNat) = id from funext fun x => by simp, List.map_id,
    Memory.ofList_toList h]

theorem arrayOut_ok {w size bound : Nat} {m : Memory w} (h : bound = 2 ^ w) :
    arrayOk size bound (arrayOut size m) = true := by
  rw [arrayOk_iff]
  unfold arrayOut
  refine ⟨by simp, fun v hv => ?_⟩
  simp only [List.mem_map] at hv
  obtain ⟨x, _, rfl⟩ := hv
  rw [h]
  exact x.isLt

theorem arrayIn_wf {w size : Nat} {l : List Nat} (h : l.length = size) : Memory.wf size (arrayIn w l) = true :=
  Memory.ofList_wf (by simp [h])

/-- A cell of the array a restore builds. -/
theorem arrayIn_read {w bound : Nat} {l : List Nat} (hb : bound = 2 ^ w) (h : ∀ v ∈ l, v < bound) (i : Nat) :
    (Memory.read (arrayIn w l) i).toNat = l.getD i 0 := by
  unfold arrayIn
  rw [Memory.read_ofList, if_pos (Nat.zero_le i), Nat.sub_zero, List.getD_eq_getElem?_getD,
    List.getD_eq_getElem?_getD, List.getElem?_map]
  cases hi : l[i]? with
  | none => simp
  | some v =>
    have hv := h v (List.mem_of_getElem? hi)
    rw [hb] at hv
    simp [Nat.mod_eq_of_lt hv]

/-- A value of the array a capture lists. -/
theorem arrayOut_getElem? {w size i : Nat} {m : Memory w} (hi : i < size) :
    (arrayOut size m)[i]? = some (Memory.read m i).toNat := by
  simp [arrayOut, Memory.toList, List.getElem?_map, List.getElem?_range hi]

/-- The arrays of a capture, each its own component. -/
theorem capture_mem (s : State) : (capture s).mem = arrayOut memSize s.mem := by
  simp only [capture]
theorem capture_pat (s : State) : (capture s).pat = arrayOut patSize s.pat := by
  simp only [capture]
theorem capture_nt (s : State) : (capture s).nt = arrayOut ntSize s.nt := by
  simp only [capture]
theorem capture_pal (s : State) : (capture s).pal = arrayOut palSize s.pal := by
  simp only [capture]
theorem capture_fb (s : State) : (capture s).fb = arrayOut fbSize s.fb := by
  simp only [capture]
theorem capture_buttons (s : State) : (capture s).buttons = s.buttons.toList.map Bool.toNat := rfl

/-- A button a restore sets. -/
theorem buttonsIn_toNat {l : List Nat} (h : ∀ v ∈ l, v = 0 ∨ v = 1) (b : Fin 8) :
    (buttonsIn l)[b].toNat = l.getD b 0 := by
  have hv : ∀ i, l.getD i 0 = 0 ∨ l.getD i 0 = 1 := fun i => by
    rw [List.getD_eq_getElem?_getD]
    cases hi : l[i]? with
    | none => exact .inl rfl
    | some v => exact h v (List.mem_of_getElem? hi)
  have key : ∀ i, (l.getD i 0 == 1).toNat = l.getD i 0 := fun i => by
    rcases hv i with e | e <;> rw [e] <;> rfl
  fin_cases b <;> exact key _

theorem buttonsIn_out (v : Vector Bool 8) : buttonsIn (v.toList.map Bool.toNat) = v := by
  ext i hi
  unfold buttonsIn
  have : i = 0 ∨ i = 1 ∨ i = 2 ∨ i = 3 ∨ i = 4 ∨ i = 5 ∨ i = 6 ∨ i = 7 := by omega
  rcases this with rfl | rfl | rfl | rfl | rfl | rfl | rfl | rfl <;>
    simp [List.getD_eq_getElem?_getD]

/-- What `Capture` gives is well-formed. -/
theorem capture_wf (s : State) : (capture s).wf = true := by
  unfold Snapshot.wf
  simp only [capture, Bool.and_eq_true]
  refine ⟨⟨⟨⟨⟨⟨⟨⟨⟨⟨⟨⟨decide_eq_true s.a.isLt, decide_eq_true s.x.isLt⟩, decide_eq_true s.y.isLt⟩,
    decide_eq_true s.sp.isLt⟩, decide_eq_true s.p.isLt⟩, decide_eq_true s.pc.isLt⟩, arrayOut_ok (by norm_num)⟩,
    arrayOut_ok (by norm_num)⟩, arrayOut_ok (by norm_num)⟩, arrayOut_ok (by norm_num)⟩, arrayOut_ok (by norm_num)⟩,
    ?_⟩, decide_eq_true (Nat.lt_succ_of_le (Bool.toNat_le s.pend))⟩
  rw [arrayOk_iff]
  refine ⟨by simp, fun v hv => ?_⟩
  simp only [List.mem_map] at hv
  obtain ⟨x, _, rfl⟩ := hv
  exact Nat.lt_succ_of_le (Bool.toNat_le x)

end Sys2Proof.Machine
end

