-- ==== Sys2Proof/Laws/Step.lean ====
section
/-! SUPPORT. What an action of the sequencer, of the host and of the machine can do, said once. -/

namespace Sys2Proof.Machine

/-- Every action SEQ can take, by where its loop stands (60_exceptions.md R210). -/
theorem seqTurn_cases {s t : State} (h : seqTurn s = .next t) :
    ((s.phase = .idle ∨ s.phase = .stopped) ∧ s.run = true ∧ t = beginFrame s) ∨
    ((s.phase = .idle ∨ s.phase = .stopped) ∧ s.run = false ∧ t = s.setPhase .stopped) ∨
    (s.phase = .stepping ∧ s.acc < s.budget ∧ ∃ u c, cpuStep s = .next (u, c) ∧ t = u.addAcc c) ∨
    (s.phase = .stepping ∧ s.budget ≤ s.acc ∧ t = (rasterize s).setPhase .rendered) ∨
    (s.phase = .rendered ∧ t = (raiseNmi s).setPhase .idle) ∨
    (s.phase = .faulted ∧ t = s) := by
  unfold seqTurn at h
  cases hp : s.phase <;> simp only [hp] at h
  case idle =>
    cases h
    cases hr : s.run
    · exact .inr (.inl ⟨.inl rfl, rfl, by simp [frameBoundary, hr]⟩)
    · exact .inl ⟨.inl rfl, rfl, by simp [frameBoundary, hr]⟩
  case stepping =>
    by_cases hb : s.acc < s.budget
    · obtain ⟨u, c, hc⟩ := cpuStep_total s
      rw [if_pos hb, countStep, hc] at h
      cases h
      exact .inr (.inr (.inl ⟨rfl, hb, u, c, hc, rfl⟩))
    · rw [if_neg hb] at h
      cases h
      exact .inr (.inr (.inr (.inl ⟨rfl, by omega, rfl⟩)))
  case rendered =>
    cases h
    exact .inr (.inr (.inr (.inr (.inl ⟨rfl, rfl⟩))))
  case stopped =>
    cases h
    cases hr : s.run
    · exact .inr (.inl ⟨.inr rfl, rfl, by simp [frameBoundary, hr]⟩)
    · exact .inl ⟨.inr rfl, rfl, by simp [frameBoundary, hr]⟩
  case faulted =>
    cases h
    exact .inr (.inr (.inr (.inr (.inr ⟨rfl, rfl⟩))))

/-- SEQ always has an answer, and it is a next state. -/
theorem seqTurn_total (s : State) : ∃ t, seqTurn s = .next t := by
  unfold seqTurn
  cases s.phase with
  | stepping =>
    dsimp only
    split
    · obtain ⟨u, c, hc⟩ := cpuStep_total s
      exact ⟨u.addAcc c, by rw [countStep, hc]⟩
    · exact ⟨_, rfl⟩
  | _ => exact ⟨_, rfl⟩

/-- A step is SEQ's action or the host's, after its turn is taken off the schedule (20_memory.md R70). -/
theorem step_cases {s t : State} (h : step s = .next t) :
    (s.turns = [] ∧ seqTurn s = .next t) ∨
    (∃ rest, s.turns = .seq :: rest ∧ seqTurn (s.setTurns rest) = .next t) ∨
    (∃ action rest u r, s.turns = .host action :: rest ∧
      hostAction action (s.setTurns rest) = .next (u, r) ∧ t = u.addReply r) := by
  unfold step at h
  split at h
  · next ht => exact .inl ⟨ht, h⟩
  · next rest ht => exact .inr (.inl ⟨rest, ht, h⟩)
  · next action rest ht =>
    unfold hostTurn at h
    split at h
    · next u r hu => cases h; exact .inr (.inr ⟨action, rest, u, r, ht, hu, rfl⟩)
    · cases h
    · cases h

/-- A run of `k + 1` steps whose first step answers `t` is a run of `k` steps from `t`. -/
theorem run_succ_of_next {s t : State} {k : Nat} (h : step s = .next t) : core.run (k + 1) s = core.run k t := by
  have hc : core.step s = .next t := h
  simp only [Host.Core.run, hc]

/-- A run of no step stays where it is. -/
theorem run_zero (s : State) : core.run 0 s = .next s := rfl

/-- With nothing scheduled a step is SEQ's action. -/
theorem step_of_no_turns {s : State} (h : s.turns = []) : step s = seqTurn s := by
  rw [step, h]

/-- A turn of SEQ's is SEQ's action on the state with the turn taken off. -/
theorem step_of_seqNext {s : State} (h : s.SeqNext) : step s = seqTurn s.turnTaken := by
  rcases h with h | ⟨rest, h⟩
  · unfold step State.turnTaken
    rw [h]
    cases s
    simp_all [State.setTurns]
  · unfold step State.turnTaken
    rw [h]
    rfl

/-- A host turn is the host's action on the state with the turn taken off, and its reply recorded. -/
theorem step_of_hostNext {s : State} {action : HostAction} (h : s.HostNext action) :
    step s = hostTurn action s.turnTaken := by
  obtain ⟨rest, h⟩ := h
  unfold step State.turnTaken
  rw [h]
  rfl

/-- What a step that answers a next state was. -/
theorem step_inv {s t : State} (h : step s = .next t) :
    (s.SeqNext ∧ seqTurn s.turnTaken = .next t) ∨
    ∃ action u r, s.HostNext action ∧ hostAction action s.turnTaken = .next (u, r) ∧ t = u.addReply r := by
  rcases step_cases h with ⟨h1, _⟩ | ⟨rest, h1, _⟩ | ⟨action, rest, u, r, h1, h2, h3⟩
  · exact .inl ⟨.inl h1, by rw [← step_of_seqNext (.inl h1), h]⟩
  · exact .inl ⟨.inr ⟨rest, h1⟩, by rw [← step_of_seqNext (.inr ⟨rest, h1⟩), h]⟩
  · refine .inr ⟨action, u, r, ⟨rest, h1⟩, ?_, h3⟩
    unfold State.turnTaken
    rw [h1]
    exact h2

/-- SEQ in the step loop with cycles left: one CPU step, its cost counted. -/
theorem seqTurn_of_stepping {s t : State} {c : Nat} (hp : s.phase = .stepping) (hb : s.acc < s.budget)
    (hc : cpuStep s = .next (t, c)) : seqTurn s = .next (t.addAcc c) := by
  unfold seqTurn
  rw [hp]
  dsimp only
  rw [if_pos hb, countStep, hc]

/-- SEQ in the step loop with the budget reached: the rasterize. -/
theorem seqTurn_of_budget_reached {s : State} (hp : s.phase = .stepping) (hb : s.budget ≤ s.acc) :
    seqTurn s = .next ((rasterize s).setPhase .rendered) := by
  unfold seqTurn
  rw [hp]
  dsimp only
  rw [if_neg (by omega)]

/-- SEQ after the rasterize: the NMI. -/
theorem seqTurn_of_rendered {s : State} (hp : s.phase = .rendered) :
    seqTurn s = .next ((raiseNmi s).setPhase .idle) := by
  unfold seqTurn
  rw [hp]

/-- SEQ at a frame boundary. -/
theorem seqTurn_of_boundary {s : State} (hp : s.phase = .idle ∨ s.phase = .stopped) :
    seqTurn s = .next (frameBoundary s) := by
  unfold seqTurn
  rcases hp with hp | hp <;> rw [hp]

/-- What no action of SEQ changes. -/
theorem seqTurn_keeps {s t : State} (h : seqTurn s = .next t) :
    t.cfg = s.cfg ∧ t.x = s.x ∧ t.y = s.y ∧ t.pat = s.pat ∧ t.nt = s.nt ∧ t.pal = s.pal ∧ t.buttons = s.buttons ∧
      t.speed = s.speed ∧ t.cart = s.cart ∧ t.loaded = s.loaded ∧ t.replies = s.replies ∧ t.turns = s.turns := by
  rcases seqTurn_cases h with ⟨_, _, rfl⟩ | ⟨_, _, rfl⟩ | ⟨_, _, u, c, hc, rfl⟩ | ⟨_, _, rfl⟩ | ⟨_, rfl⟩ | ⟨_, rfl⟩
  case inr.inr.inl =>
    have hx := (cpuStep_changes hc).1
    simp only [State.addAcc]
    rw [hx]
    exact ⟨rfl, rfl, rfl, rfl, rfl, rfl, rfl, rfl, rfl, rfl, rfl, rfl⟩
  all_goals exact ⟨rfl, rfl, rfl, rfl, rfl, rfl, rfl, rfl, rfl, rfl, rfl, rfl⟩

/-- Two runs one after the other. -/
theorem run_add {k m : Nat} {s t : State} (h : core.run k s = .next t) : core.run (k + m) s = core.run m t := by
  induction k generalizing s with
  | zero =>
    rw [run_zero] at h
    cases h
    rw [Nat.zero_add]
  | succ k ih =>
    cases hs : step s with
    | next u =>
      rw [run_succ_of_next hs] at h
      rw [Nat.succ_add, run_succ_of_next hs]
      exact ih h
    | fault f =>
      have hc : core.step s = .fault f := hs
      simp only [Host.Core.run, hc] at h
      cases h
    | refused f =>
      have hc : core.step s = .refused f := hs
      simp only [Host.Core.run, hc] at h
      cases h

/-- A rational budget and its ceiling compare the same with a whole count (60_exceptions.md R211; log 21). -/
theorem lt_frameBudget_iff (c : Config) (q : Speed) (n : Nat) :
    n < frameBudget c q ↔ n * q.den < c.baseCyclesPerFrame * q.num := by
  have h := q.den_pos
  unfold frameBudget
  rw [← Nat.succ_le_iff, Nat.le_div_iff_mul_le h, Nat.succ_mul]
  omega

end Sys2Proof.Machine
end

