-- ==== Sys2Proof/Tests/Slice0.lean ====
section
/-! SUPPORT. Tests: ill-formed terms the checks refuse, decoding of words written out from 30_encoding.md, single steps
with the results of 95_test_vectors.md (its vector's name stands in each comment), and for every statement with
hypotheses a concrete state that meets them. -/

namespace Sys2Proof.Tests

open Sys2Proof.Machine

/-! ### The bench -/

/-- R7's values, with numbers in the places of the OPEN ones. -/
def benchCfg : Config := { Config.taken with baseCyclesPerFrame := 12, framePeriod := 0 }

/-- A machine in the step loop of a frame of 12 cycles, with these cells of M and this PC. -/
def bench (pc : Addr) (mem : Memory 8) : State :=
  { State.powerOn benchCfg ⟨1, 1, Nat.one_pos⟩ with phase := .stepping, budget := 12, pc := pc, mem := mem }

/-- Something of the next state, if there is one. -/
def after {α : Type} (o : Host.Outcome State Fault Refusal) (f : State → α) : Option α :=
  match o with
  | .next t => some (f t)
  | .fault _ => none
  | .refused _ => none

/-- A, P, PC and the cycles counted. -/
def regs (s : State) : Byte × Byte × Addr × Nat := (s.a, s.p, s.pc, s.cyc)

/-! ### Ill-formed terms -/

theorem test_wf_refuses_two_equal_opcodes :
    Config.opcodesDistinct { benchCfg with opcJmpAbs := 0xA9 } = false ∧
    Config.opcodesDistinct { benchCfg with opcLdaAbs := 0xA9 } = false ∧
    Config.opcodesDistinct { benchCfg with opcStaAbs := 0xA9 } = false ∧
    Config.opcodesDistinct { benchCfg with opcStaAbs := 0xAD } = false ∧
    Config.opcodesDistinct { benchCfg with opcJmpAbs := 0xAD } = false ∧
    Config.opcodesDistinct { benchCfg with opcJmpAbs := 0x8D } = false := by decide

theorem test_wf_refuses_two_equal_status_bits :
    Config.bitsDistinct { benchCfg with bitZ := 7 } = false ∧ Config.bitsDistinct { benchCfg with bitI := 7 } = false ∧
    Config.bitsDistinct { benchCfg with bitI := 1 } = false := by decide

theorem test_wf_refuses_input_addr_in_a_window :
    Config.inputOutsideWindows { benchCfg with inputAddr := 0x8000 } = false ∧
    Config.inputOutsideWindows { benchCfg with inputAddr := 0x7FFF } = true := by decide

theorem test_wf_of_the_whole_configuration :
    benchCfg.wf = true ∧ Config.wf { benchCfg with bitZ := 7 } = false ∧
    Config.wf { benchCfg with opcJmpAbs := 0xA9 } = false ∧ Config.wf { benchCfg with inputAddr := 0xFFFF } = false := by
  decide

theorem test_wf_refuses_unimpl_of_an_implemented_opcode :
    Instr.wf benchCfg (.unimpl 0xA9) = false ∧ Instr.wf benchCfg (.unimpl 0xAD) = false ∧
    Instr.wf benchCfg (.unimpl 0x8D) = false ∧ Instr.wf benchCfg (.unimpl 0x4C) = false ∧
    Instr.wf benchCfg (.unimpl 0x6C) = true := by decide

theorem test_memory_wf_refuses_zero_unsorted_and_outside :
    Memory.wf 4 ([(1, 0)] : Memory 8) = false ∧ Memory.wf 4 ([(2, 1), (1, 1)] : Memory 8) = false ∧
    Memory.wf 4 ([(1, 1), (1, 1)] : Memory 8) = false ∧ Memory.wf 4 ([(4, 1)] : Memory 8) = false ∧
    Memory.wf 4 ([(0, 1), (3, 1)] : Memory 8) = true := by decide

/-! ### Decoding: words from 30_encoding.md R81 to R83, opcodes of R86 -/

/-- LDA #$80 is A9 80: imm8 in bits 15..8 (R82). -/
theorem test_decode_ldaImm : decodeTableWord 16 0x80A9 = some (.ldaImm 0x80) := by decide

/-- LDA $0234 is AD 34 02: addr_lo in bits 15..8, addr_hi in bits 23..16 (R83). -/
theorem test_decode_ldaAbs : decodeTableWord 24 0x0234AD = some (.ldaAbs 0x0234) := by decide

/-- STA $1234 is 8D 34 12. -/
theorem test_decode_staAbs : decodeTableWord 24 0x12348D = some (.staAbs 0x1234) := by decide

/-- JMP $ABCD is 4C CD AB. -/
theorem test_decode_jmpAbs : decodeTableWord 24 0xABCD4C = some (.jmpAbs 0xABCD) := by decide

/-- 0x00, 0x40, 0xEA, 0xFF have no row (R88). -/
theorem test_decode_unimpl :
    decodeTableWord 8 0x00 = some (.unimpl 0x00) ∧ decodeTableWord 8 0x40 = some (.unimpl 0x40) ∧
    decodeTableWord 8 0xEA = some (.unimpl 0xEA) ∧ decodeTableWord 8 0xFF = some (.unimpl 0xFF) := by decide

/-- A word with no operand bits: the operand bytes are 0. -/
theorem test_decode_short_word : decodeTableWord 8 0x4C = some (.jmpAbs 0x0000) := by decide

/-- Bytes that are cut short do not decode. -/
theorem test_decode_refuses_truncated :
    decode benchCfg [] = .error .noOpcode ∧ decode benchCfg [0xA9] = .error (.truncated 0xA9) ∧
    decode benchCfg [0x8D, 0x00] = .error (.truncated 0x8D) := ⟨rfl, rfl, rfl⟩

/-- The word the host places is what the next step from reset runs. -/
theorem test_withFetchWord_loads :
    after (step (State.reset.withFetchWord 16 0x80A9)) regs = some (0x80, 0xA4, 0x0002, 2) ∧
    after (step (State.reset.withFetchWord 24 0x0000AD)) regs = some (0xAD, 0xA4, 0x0003, 4) := by decide

/-- The same for the other rows. -/
theorem test_withFetchWord_others :
    after (step (State.reset.withFetchWord 24 0x12348D)) regs = some (0x00, 0x24, 0x0003, 4) ∧
    after (step (State.reset.withFetchWord 24 0xABCD4C)) regs = some (0x00, 0x24, 0xABCD, 3) ∧
    after (step (State.reset.withFetchWord 8 0xFF)) regs = some (0x00, 0x24, 0x0001, 2) := by decide

/-! ### One step (95_test_vectors.md part 2) -/

/-- LI-3. -/
theorem test_ldaImm_negative :
    after (step (bench 0x8000 [(0x8000, 0xA9), (0x8001, 0x80)])) regs = some (0x80, 0xA4, 0x8002, 2) := by decide

/-- LI-7: an opcode at FFFE, PC wraps, Z set. -/
theorem test_ldaImm_zero_at_the_top :
    after (step (bench 0xFFFE [(0xFFFE, 0xA9)])) regs = some (0x00, 0x26, 0x0000, 2) := by decide

/-- LA-3: it reads itself. -/
theorem test_ldaAbs_reads_itself :
    after (step (bench 0x8000 [(0x8000, 0xAD), (0x8002, 0x80)])) regs = some (0xAD, 0xA4, 0x8003, 4) := by decide

/-- LA-4: operand bytes across the top of memory. -/
theorem test_ldaAbs_operand_wraps :
    after (step (bench 0xFFFE [(0x0000, 0x02), (0xFFFE, 0xAD), (0xFFFF, 0x10)])) regs =
      some (0x00, 0x26, 0x0001, 4) := by decide

/-- SA-1. -/
theorem test_staAbs_stores :
    after (step { bench 0x8002 [(0x8002, 0x8D), (0x8004, 0x02)] with a := 0x42 })
      (fun t => (memRead t 0x0200, t.a, t.p, t.pc, t.acc)) = some (0x42, 0x42, 0x24, 0x8005, 4) := by decide

/-- SA-4: a window that is not writable keeps its byte. -/
theorem test_staAbs_window_not_writable :
    after (step { bench 0x8000 [(0x8000, 0x8D), (0x8001, 0xFA), (0x8002, 0xFF)] with
      a := 0x34, cfg := { benchCfg with prgWindowWritable := false } })
      (fun t => (memRead t 0xFFFA, t.pc, t.cyc)) = some (0x00, 0x8003, 4) := by decide

/-- J-3. -/
theorem test_jmpAbs_operand_wraps :
    after (step (bench 0xFFFE [(0x0000, 0x90), (0xFFFE, 0x4C)])) regs = some (0x00, 0x24, 0x9000, 3) := by decide

/-- J-1. -/
theorem test_jmpAbs :
    after (step (bench 0x8000 [(0x8000, 0x4C), (0x8001, 0x34), (0x8002, 0x12)])) regs =
      some (0x00, 0x24, 0x1234, 3) := by decide

/-- U-1. -/
theorem test_unimpl : after (step (bench 0x8000 [(0x8000, 0xFF)])) regs = some (0x00, 0x24, 0x8001, 2) := by decide

/-- U-2: at the top of memory. -/
theorem test_unimpl_wraps : after (step (bench 0xFFFF [])) regs = some (0x00, 0x24, 0x0000, 2) := by decide

/-- N-2: the status goes onto the stack as it was, then I is set. -/
theorem test_interrupt_pushes_and_sets_i :
    after (step { bench 0x1234 [(0xFFFB, 0x90)] with pend := true, p := 0x00 })
      (fun t => ([memRead t 0x01FD, memRead t 0x01FC, memRead t 0x01FB, t.sp, t.p], t.pc, t.pend, t.acc)) =
      some ([0x12, 0x34, 0x00, 0xFA, 0x04], 0x9000, false, 7) := by decide

/-- N-3: S wraps within its page. -/
theorem test_interrupt_stack_wraps :
    after (step { bench 0x8000 [] with pend := true, sp := 0x01 })
      (fun t => ((memRead t 0x0101, memRead t 0x0100, memRead t 0x01FF), t.sp)) =
      some ((0x80, 0x00, 0x24), 0xFE) := by decide

/-- R-1's first pixels: values 3, 2, 1 and 0 (R155). -/
theorem test_pixel_values :
    (List.range 4).map (pixelValue 0xA0 0xC0) = [3, 2, 1, 0] := by decide

/-- R-3: the palette byte is masked to 6 bits. -/
theorem test_colour_is_masked : colourAt { bench 0 [] with pat := [(0x3F00, 0xC5)] } 100 200 = 0x05 := by decide

/-- R-4: the last pixel of the last tile. -/
theorem test_last_pixel :
    colourAt { bench 0 [] with nt := [(959, 0xFF)], pat := [(0xFF7, 0x01), (0x3F01, 0x21)] } 239 255 = 0x21 := by decide

/-- R-6: the other palette source. -/
theorem test_palette_memory :
    colourAt { bench 0 [] with
      cfg := { benchCfg with paletteSource := .paletteMemory }, nt := [(0, 1)], pat := [(0x10, 0xA0), (0x18, 0xC0)],
      pal := [(0, 1), (1, 2), (2, 3), (3, 4)] } 0 0 = 0x04 := by decide

/-- L-1, L-2. -/
theorem test_load_fails :
    (load [0x4E, 0x45, 0x53] (bench 0 [])).2 = .formatError .badMagic ∧
    (load [0x4E, 0x45, 0x53, 0x1A, 1, 1] (bench 0 [])).2 = .formatError .truncatedHeader ∧
    (load [0x4E, 0x45, 0x53, 0x1A, 1, 0, 0, 0, 0, 0, 0, 0, 0, 0, 0, 0, 7] (bench 0 [])).2 =
      .formatError .truncatedProgram ∧
    (load [0x4E, 0x45, 0x53, 0x1A, 0, 1, 0, 0, 0, 0, 0, 0, 0, 0, 0, 0, 7]
      { bench 0 [] with cfg := { benchCfg with chrTruncation := .formatError } }).2 =
      .formatError .truncatedPattern := by decide

/-- L-7, L-8: which header bits make the mapper id. -/
theorem test_mapper_id : 
    mapperId benchCfg 0x01 0x00 = 0 ∧ mapperId benchCfg 0x10 0x00 = 1 ∧ mapperId benchCfg 0x00 0x10 = 0x10 := by decide

/-- NMI_PUSHED_P is a parameter: one that forces bits 4 and 5 of the pushed status (R205, D4's alternative). -/
theorem test_nmi_pushed_p :
    after (step { bench 0x1234 [] with
      pend := true, p := 0x84, cfg := { benchCfg with nmiPushedP := .or (.arg 0) (.const 0x30) } })
      (fun t => (memRead t 0x01FB, t.p)) = some (0xB4, 0x84) := by decide

/-- MAPPER_ID is a parameter: one that shifts left and one that looks at a value. -/
theorem test_mapper_id_parameter :
    mapperId { benchCfg with mapperId := .and (.shiftLeft (.arg 0) 4) (.arg 1) } 0x0F 0x3C = 0x30 ∧
    mapperId { benchCfg with mapperId := .ifArg 1 0x44 (.const 1) (.arg 0) } 0x20 0x44 = 1 ∧
    mapperId { benchCfg with mapperId := .ifArg 1 0x44 (.const 1) (.arg 0) } 0x20 0x45 = 0x20 := by decide

/-- I-1, I-2, I-3 (R174). -/
theorem test_setKey :
    (let s1 := setKey 0 true (bench 0 [])
     let s2 := setKey 3 true s1
     let s3 := setKey 0 false s2
     (memRead s1 0x4016, s1.buttons[0], memRead s2 0x4016, s2.buttons[3], memRead s3 0x4016, s3.buttons[0])) =
      (0x01, true, 0x01, true, 0x00, false) := by decide

/-- The budget is a rational's ceiling: 9 × 1/2 = 4.5, so ACC 0 to 4 go on (R211). -/
theorem test_frameBudget : frameBudget { benchCfg with baseCyclesPerFrame := 9 } ⟨1, 2, Nat.two_pos⟩ = 5 := by decide

/-! ### Snapshots with a wrong field are refused (46_snapshot.md R184) -/

theorem test_snapshot_scalars_out_of_range (s : State) :
    ¬Snapshot.HasShape { capture s with a := 256 } ∧ ¬Snapshot.HasShape { capture s with x := 256 } ∧
    ¬Snapshot.HasShape { capture s with y := 256 } ∧ ¬Snapshot.HasShape { capture s with sp := 256 } ∧
    ¬Snapshot.HasShape { capture s with p := 256 } ∧ ¬Snapshot.HasShape { capture s with pc := 65536 } ∧
    ¬Snapshot.HasShape { capture s with pend := 2 } :=
  ⟨fun h => absurd h.registers.1 (by simp), fun h => absurd h.registers.2.1 (by simp),
    fun h => absurd h.registers.2.2.1 (by simp), fun h => absurd h.registers.2.2.2.1 (by simp),
    fun h => absurd h.registers.2.2.2.2.1 (by simp), fun h => absurd h.registers.2.2.2.2.2 (by simp),
    fun h => absurd h.pend (by simp)⟩

theorem test_snapshot_arrays_of_the_wrong_size (s : State) :
    ¬Snapshot.HasShape { capture s with mem := [] } ∧ ¬Snapshot.HasShape { capture s with pat := [] } ∧
    ¬Snapshot.HasShape { capture s with nt := [] } ∧ ¬Snapshot.HasShape { capture s with pal := [] } ∧
    ¬Snapshot.HasShape { capture s with fb := [] } ∧ ¬Snapshot.HasShape { capture s with buttons := [] } :=
  ⟨fun h => absurd h.sizes.1 (by simp), fun h => absurd h.sizes.2.1 (by simp),
    fun h => absurd h.sizes.2.2.1 (by simp), fun h => absurd h.sizes.2.2.2 (by simp),
    fun h => absurd h.frame.1 (by simp), fun h => absurd h.buttons.1 (by simp)⟩

theorem test_snapshot_values_out_of_range (s : State) :
    ¬Snapshot.HasShape { capture s with pal := List.replicate 32 256 } ∧
    ¬Snapshot.HasShape { capture s with fb := List.replicate 61440 64 } ∧
    ¬Snapshot.HasShape { capture s with buttons := [0, 0, 0, 0, 0, 0, 0, 2] } :=
  ⟨fun h => absurd (h.bytes 256 (by simp)) (by simp),
    fun h => absurd (h.frame.2 64 (List.mem_replicate.mpr ⟨by omega, rfl⟩)) (by omega),
    fun h => absurd (h.buttons.2 2 (by simp)) (by simp)⟩

/-! ### Witnesses: states and operands that meet the hypotheses of the statements, one for each clause -/

/-- LDA #$80 about to run. -/
def ldaBench : State := bench 0x8000 [(0x8000, 0xA9), (0x8001, 0x80)]

/-- STA $8003 about to run: it stores into the next instruction's opcode. -/
def staBench : State := { bench 0x8000 [(0x8000, 0x8D), (0x8001, 0x03), (0x8002, 0x80)] with a := 0x4C }

/-- An NMI pending. -/
def nmiBench : State := { ldaBench with pend := true }

/-- An image with no bank (L-4). -/
def image0 : List Byte := [0x4E, 0x45, 0x53, 0x1A, 0, 0, 0, 0, 0, 0, 0, 0, 0, 0, 0, 0]

/-- An image with `n` program banks of 0xEA and mapper 0 (S11). -/
def imageN (n : Nat) : List Byte :=
  [0x4E, 0x45, 0x53, 0x1A, BitVec.ofNat 8 n, 0, 0, 0, 0, 0, 0, 0, 0, 0, 0, 0] ++ List.replicate (n * 16384) 0xEA

/-- An image with a pattern bank of which `k` bytes are there (L-9). -/
def imageChr (k : Nat) : List Byte :=
  [0x4E, 0x45, 0x53, 0x1A, 0, 1, 0, 0, 0, 0, 0, 0, 0, 0, 0, 0] ++ List.replicate k 0x55

theorem imageN_length (n : Nat) : (imageN n).length = 16 + n * 16384 := by
  simp only [imageN, List.length_append, List.length_replicate, List.length_cons, List.length_nil]

theorem imageChr_length (k : Nat) : (imageChr k).length = 16 + k := by
  simp only [imageChr, List.length_append, List.length_replicate, List.length_cons, List.length_nil]

/-- A host action next. -/
def hostBench (action : HostAction) (s : State) : State := { s with turns := [.host action] }

theorem step_restore_capture (s u : State) :
    step (hostBench (.restore (.record (capture u))) s) =
      .next ((restoreCommit (capture u) ((hostBench (.restore (.record (capture u))) s).setTurns [])).addReply .ok) := by
  unfold step
  rw [show (hostBench (.restore (.record (capture u))) s).turns = [.host (.restore (.record (capture u)))] from rfl]
  simp [hostTurn, hostAction, restore, capture_wf]

theorem load_of_checks {s : State} {bytes : List Byte} (h : parseCart s.cfg bytes = .ok (cartOf s.cfg bytes)) :
    load bytes s = (loadCommit (cartOf s.cfg bytes) s, .ok) := by
  unfold load
  rw [h]

theorem bench_inv : ldaBench.Inv :=
  ⟨by decide, by decide, rfl, rfl, rfl, rfl, rfl, fun _ h => absurd h (by simp [ldaBench, bench, State.powerOn]), by decide⟩

theorem bench_aboutToStep : ldaBench.AboutToStep ∧ staBench.AboutToStep ∧ nmiBench.AboutToStep :=
  ⟨⟨.inl rfl, rfl, by decide⟩, ⟨.inl rfl, rfl, by decide⟩, ⟨.inl rfl, rfl, by decide⟩⟩

/-- DecodeOfEncodeIsTheInstruction, OpcodeAloneDecidesTheLength, DispatchTableEntries (first clause, both halves). -/
theorem witness_encoding :
    benchCfg.wf = true ∧ Instr.wf benchCfg (.unimpl 0xFF) = true ∧ 2 ≤ ([0x00, 0x00] : List Byte).length ∧
    (0x00 : Byte) ≠ benchCfg.opcLdaImm ∧ (0x00 : Byte) ≠ benchCfg.opcLdaAbs ∧ (0x00 : Byte) ≠ benchCfg.opcStaAbs ∧
    (0x00 : Byte) ≠ benchCfg.opcJmpAbs := by decide

/-- EncodeOfDecodedIsTheBytes. -/
theorem witness_decoded : decode benchCfg [0xA9, 0x80, 0xEA] = .ok (.ldaImm 0x80, [0xEA]) := rfl

theorem nmiBench_no_host (action : HostAction) : ¬nmiBench.HostNext action := by
  rintro ⟨_, h⟩
  cases h

/-- The statements about every step that answers a next state, with no load and no restore next: DispatchTableEntries
(second clause), CapturedSnapshotsNeverChange, OnlyALoadChangesTheCartridge, TheConfigurationIsFixed,
OnlyLoadAndRestoreWriteXYAndPictureMemory, OnlyNamedStatusBitsChange (in interrupt service, which sets I). -/
theorem witness_step :
    after (step nmiBench) (fun t => (t.pend, t.cfg == nmiBench.cfg)) = some (false, true) ∧ nmiBench.cfg.wf = true ∧
    (∀ bytes, ¬nmiBench.HostNext (.load bytes)) ∧ (∀ input, ¬nmiBench.HostNext (.restore input)) :=
  ⟨by decide, by decide, fun _ => nmiBench_no_host _, fun _ => nmiBench_no_host _⟩

/-- OnlyALoadChangesTheCartridge: a load that changes it. -/
theorem witness_step_load :
    ldaBench.cart = none ∧ after (step (hostBench (.load image0) ldaBench)) (fun t => t.loaded) = some true := by decide

/-- StepRunsTheDecodedInstruction. -/
theorem witness_stepRuns :
    ldaBench.AboutToStep ∧ ldaBench.pend = false ∧
    decode ldaBench.cfg (fetchBytes ldaBench) = .ok (.ldaImm 0x80, [0x00]) := ⟨⟨.inl rfl, rfl, by decide⟩, rfl, rfl⟩

/-- PendingNmiIsServicedInsteadOfAFetch, NmiIsTakenWhateverTheStatus. -/
theorem witness_pending : nmiBench.AboutToStep ∧ nmiBench.pend = true := ⟨⟨.inl rfl, rfl, by decide⟩, rfl⟩

/-- LdaImmediateLoadsItsOperand. -/
theorem witness_ldaImm :
    ldaBench.cfg.wf = true ∧ memRead ldaBench ldaBench.pc = ldaBench.cfg.opcLdaImm ∧
    memRead ldaBench (ldaBench.pc + 1) = 0x80 := by decide

/-- LdaAbsoluteLoadsFromMemory: LA-4, the operand across the top of memory. -/
theorem witness_ldaAbs :
    let s := bench 0xFFFE [(0x0000, 0x02), (0xFFFE, 0xAD), (0xFFFF, 0x10)]
    s.cfg.wf = true ∧ memRead s s.pc = s.cfg.opcLdaAbs ∧
    (memRead s (s.pc + 2)).toNat * 256 + (memRead s (s.pc + 1)).toNat = (0x0210 : Addr).toNat := by decide

/-- StaAbsoluteStoresTheAccumulator, StoreFrame: a store to 0x7FFF and one to 0x8000, on the two sides of the window. -/
theorem witness_staAbs :
    let s := bench 0x0300 [(0x0300, 0x8D), (0x0301, 0xFF), (0x0302, 0x7F)]
    s.cfg.wf = true ∧ Memory.wf memSize s.mem = true ∧ memRead s s.pc = s.cfg.opcStaAbs ∧
    (memRead s (s.pc + 2)).toNat * 256 + (memRead s (s.pc + 1)).toNat = (0x7FFF : Addr).toNat ∧
    (0x7FFF : Addr).toNat < 0x8000 ∧ ¬(0x8000 : Addr).toNat < 0x8000 ∧
    after (exec (.staAbs 0x7FFF) s) (fun t => memRead t 0x7FFF) = some 0x00 := by decide

/-- JmpAbsoluteSetsThePc: J-1. -/
theorem witness_jmpAbs :
    let s := bench 0x8000 [(0x8000, 0x4C), (0x8001, 0x34), (0x8002, 0x12)]
    s.cfg.wf = true ∧ memRead s s.pc = s.cfg.opcJmpAbs ∧
    (memRead s (s.pc + 2)).toNat * 256 + (memRead s (s.pc + 1)).toNat = (0x1234 : Addr).toNat := by decide

/-- FallbackAdvancesThePcByOne: U-2. -/
theorem witness_unimpl :
    let s := bench 0xFFFF []
    memRead s s.pc = 0x00 ∧ (0x00 : Byte) ≠ s.cfg.opcLdaImm ∧ (0x00 : Byte) ≠ s.cfg.opcLdaAbs ∧
    (0x00 : Byte) ≠ s.cfg.opcStaAbs ∧ (0x00 : Byte) ≠ s.cfg.opcJmpAbs := by decide

/-- NonStoringInstructionsFrame, OnlyLoadsUpdateZeroAndNegative (a load, and an instruction that is none). -/
theorem witness_frame :
    (∀ ea, Instr.ldaAbs 0x8000 ≠ .staAbs ea) ∧ memRead ldaBench 0x8000 = 0xA9 ∧
    after (exec (.ldaAbs 0x8000) ldaBench) (fun t => t.a) = some 0xA9 ∧
    (∀ v, Instr.jmpAbs 0x8000 ≠ .ldaImm v) ∧ (∀ ea, Instr.jmpAbs 0x8000 ≠ .ldaAbs ea) ∧
    after (exec (.jmpAbs 0x8000) ldaBench) (fun t => t.a) = some 0x00 :=
  ⟨by simp, by decide, by decide, by simp, by simp, by decide⟩

/-- EveryStepAddsItsCostToCyc (both clauses), CpuStepIgnoresXYPictureAndButtons. -/
theorem witness_cost :
    nmiBench.pend = true ∧ ldaBench.pend = false ∧
    decode ldaBench.cfg (fetchBytes ldaBench) = .ok (.ldaImm 0x80, [0x00]) ∧ ∃ t, cpuStep ldaBench = .next (t, 2) :=
  ⟨rfl, rfl, rfl, _, rfl⟩

/-- StoredCodeIsFetchedNext: the store falls on the next opcode. -/
theorem witness_storedCode :
    Memory.wf memSize staBench.mem = true ∧ staBench.cfg.prgWindowWritable = true ∧
    after (exec (.staAbs 0x8003) staBench) (fun t => (t.pc + BitVec.ofNat 16 (0 : Fin 3).val, (fetchBytes t)[0]?)) =
      some (0x8003, some 0x4C) := by decide

/-- OnlyOutOfRangeKeysAreRefused (its second case), KeyOutsideTheEightIsRefused: I-4. -/
theorem witness_refusedKey :
    (hostBench (.setKey 8 true) ldaBench).HostNext (.setKey 8 true) ∧
    step (hostBench (.setKey 8 true) ldaBench) = .refused (.buttonOutOfRange 8) := ⟨⟨[], rfl⟩, rfl⟩

/-- ZeroMemoryRunsFallbacks. -/
theorem witness_zeroMemory :
    (bench 0 []).mem = [] ∧ Instr.wf (bench 0 []).cfg (.unimpl 0x00) = true ∧ (bench 0 []).pend = false := by decide

/-- InterruptServicePushesPcAndStatus, where its clauses meet: with windows that are not writable, the push at 0x8000
stores nothing and the one at 0x7FFF does. -/
theorem witness_interrupt :
    let s := { nmiBench with cfg := { benchCfg with prgWindowWritable := false, stackBase := 0x7F03 }, pc := 0x1234 }
    Memory.wf memSize s.mem = true ∧ s.cfg.stackBase + s.sp.setWidth 16 = 0x8000 ∧
    s.cfg.stackBase + (s.sp - 1).setWidth 16 = 0x7FFF ∧ s.cfg.stackBase + (s.sp - 2).setWidth 16 = 0x7FFE ∧
    memRead (interruptService s) 0x8000 = memRead s 0x8000 ∧ memRead (interruptService s) 0x7FFF = 0x34 ∧
    memRead (interruptService s) 0x7FFE = 0x24 := by decide

/-- WhatSetsAndClearsPend: RaiseNMI with PEND 0 and with PEND 1, a restore that sets it. -/
theorem witness_pendSet :
    after (step { ldaBench with phase := .rendered }) (fun t => t.pend) = some true ∧
    after (step { nmiBench with phase := .rendered }) (fun t => t.pend) = some true ∧
    ∃ t, step (hostBench (.restore (.record (capture nmiBench))) ldaBench) = .next t ∧ t.pend = true :=
  ⟨rfl, rfl, _, step_restore_capture ldaBench nmiBench, rfl⟩

/-- WhatSetsAndClearsPend: the service, a load, and a restore that clears it. -/
theorem witness_pendCleared :
    after (step nmiBench) (fun t => t.pend) = some false ∧
    after (step (hostBench (.load image0) nmiBench)) (fun t => t.pend) = some false ∧
    ∃ t, step (hostBench (.restore (.record (capture ldaBench))) nmiBench) = .next t ∧ t.pend = false :=
  ⟨by decide, by decide, _, step_restore_capture nmiBench ldaBench, rfl⟩

/-- FrameStartReadsTheSpeed, from both boundary phases; the budget of 12 × 1. -/
theorem witness_frameStart :
    after (seqTurn { ldaBench with phase := .idle, run := true, budget := 0 }) (fun t => t.budget) = some 12 ∧
    after (seqTurn { ldaBench with phase := .stopped, run := true, budget := 0 }) (fun t => t.budget) = some 12 := by decide

/-- FrameEndRasterizesThenRaisesTheNmi, at ACC = budget. -/
theorem witness_frameEnd :
    ({ ldaBench with acc := 12 } : State).phase = .stepping ∧ ({ ldaBench with acc := 12 } : State).budget ≤ 12 ∧
    ({ ldaBench with phase := .rendered } : State).phase = .rendered := by decide

/-- ZeroBudgetFrameRunsNoStep: with SPEED 0. -/
theorem witness_zeroBudget :
    let s := { ldaBench with phase := .idle, run := true, speed := ⟨0, 1, Nat.one_pos⟩ }
    s.turns = [] ∧ s.phase = .idle ∧ s.run = true ∧ s.cfg.baseCyclesPerFrame * s.speed.num = 0 := by decide

/-- EveryFrameEndsWithinHalfItsBudget. -/
theorem witness_frameEnds : ldaBench.turns = [] ∧ ldaBench.phase = .stepping ∧ ldaBench.acc = 0 := by decide

/-- SmallBudgetFrameIsOneService, at budget 7 and at budget 1. -/
theorem witness_smallBudget :
    let s := { nmiBench with phase := .idle, run := true }
    s.turns = [] ∧ s.phase = .idle ∧ s.run = true ∧ s.pend = true ∧
    frameBudget { benchCfg with baseCyclesPerFrame := 7 } ⟨1, 1, Nat.one_pos⟩ = 7 ∧
    frameBudget { benchCfg with baseCyclesPerFrame := 7 } ⟨1, 8, by decide⟩ = 1 := by decide

/-- StopTakesEffectOnlyAtAFrameBoundary: both middles of a frame, and a boundary with RUN = 0. -/
theorem witness_stop :
    after (seqTurn ldaBench) (fun t => t.a) = some 0x80 ∧
    after (seqTurn { ldaBench with phase := .rendered }) (fun t => t.phase) = some .idle ∧
    ({ ldaBench with phase := .idle } : State).run = false := by decide

/-- FaultedSequencerTakesNoAction. -/
theorem witness_faulted :
    ({ ldaBench with phase := .faulted } : State).SeqNext ∧
    after (step { ldaBench with phase := .faulted }) (fun t => t.phase) = some .faulted := ⟨.inl rfl, rfl⟩

/-- RasterizedEntryIsTheTilePixel and CaptureHoldsEveryComponent, in the last row and column, with each palette source. -/
theorem witness_rasterized :
    239 < 240 ∧ 255 < 256 ∧ (bench 0 []).cfg.paletteSource = .patternSpace ∧
    Config.paletteSource { benchCfg with paletteSource := .paletteMemory } = .paletteMemory := by decide

/-- RasterizeDependsOnlyOnPictureMemory: two states that differ in PAL, FB and registers. -/
theorem witness_rasterizeDepends :
    let s := bench 0 []
    let s' := { bench 0x8000 [] with pal := [(0, 1)], fb := [(0, 1)], a := 1 }
    s.nt = s'.nt ∧ s.pat = s'.pat ∧ s.cfg.paletteSource = s'.cfg.paletteSource ∧
    s.cfg.paletteSource = .patternSpace ∧ s.fb ≠ s'.fb := by decide

/-- RasterizerExample: R-1. -/
theorem witness_rasterizerExample :
    let s := { bench 0 [] with
      nt := [(0, 0x01)],
      pat := [(0x10, 0xA0), (0x18, 0xC0), (0x3F00, 0x0F), (0x3F01, 0x16), (0x3F02, 0x2A), (0x3F03, 0xFF)] }
    s.cfg.paletteSource = .patternSpace ∧ Memory.wf ntSize s.nt = true ∧ Memory.wf patSize s.pat = true := by decide

/-- LoadChecksInOrder, at the lengths where its clauses meet: 7 and 8 bytes, 15 and 16 with no bank. -/
theorem witness_loadChecks :
    (load (image0.take 3) ldaBench).2 = .formatError .badMagic ∧
    (load (image0.take 7) ldaBench).2 = .formatError .truncatedHeader ∧
    (load (image0.take 8) ldaBench).2 = .formatError .truncatedProgram ∧
    (load (image0.take 15) ldaBench).2 = .formatError .truncatedProgram ∧ (load image0 ldaBench).2 = .ok := by decide

/-- LoadChecksInOrder: a pattern bank one byte short, and whole, with `format_error`. -/
theorem witness_loadPattern :
    (imageChr 8191).take 4 = [0x4E, 0x45, 0x53, 0x1A] ∧ (imageChr 8191).length + 1 = 16 + 0 * 16384 + 1 * 8192 ∧
    (imageChr 8192).length = 16 + 0 * 16384 + 1 * 8192 ∧ (imageChr 0).getD 4 0 = 0 ∧ (imageChr 0).getD 5 0 = 1 ∧
    Config.chrTruncation { benchCfg with chrTruncation := .formatError } = .formatError := by
  refine ⟨rfl, ?_, ?_, rfl, rfl, rfl⟩ <;> rw [imageChr_length]

/-- LoadResetsTheCore with both reset entry points, LoadFillsThePatternMemory and OnePatternBankGivesABlankPicture (a
pattern bank of which one byte is there). -/
theorem witness_load :
    (∃ t, load image0 ldaBench = (t, .ok)) ∧
    (∃ t, load image0 { ldaBench with cfg := { benchCfg with resetPcMode := .fixed 0x1234 } } = (t, .ok) ∧
      t.pc = 0x1234) ∧
    (∃ t, load (imageChr 1) ldaBench = (t, .ok)) ∧ ((imageChr 1).getD 5 0).toNat ≤ 1 ∧
    ldaBench.cfg.paletteSource = .patternSpace :=
  ⟨⟨_, rfl⟩, ⟨_, rfl, rfl⟩, ⟨_, rfl⟩, by decide, rfl⟩

/-- MapperZeroMapsTheBanks: one bank and two banks load with mapper 0 (and none: `witness_load`). -/
theorem witness_banks :
    (∃ t, load (imageN 1) ldaBench = (t, .ok)) ∧ (∃ t, load (imageN 2) ldaBench = (t, .ok)) ∧
    mapperId benchCfg ((imageN 1).getD 6 0) ((imageN 1).getD 7 0) = 0 ∧ ((imageN 1).getD 4 0).toNat = 1 ∧
    mapperId benchCfg ((imageN 2).getD 6 0) ((imageN 2).getD 7 0) = 0 ∧ ((imageN 2).getD 4 0).toNat = 2 := by
  refine ⟨⟨_, load_of_checks (parseCart_of_checks rfl ?_ ?_ (.inl rfl))⟩,
    ⟨_, load_of_checks (parseCart_of_checks rfl ?_ ?_ (.inl rfl))⟩, rfl, rfl, rfl, rfl⟩
  all_goals rw [imageN_length]
  · omega
  · exact Nat.le_refl (16 + 1 * 16384)
  · omega
  · exact Nat.le_refl (16 + 2 * 16384)

/-- OtherMappersMapNothing: mapper 1 (L-6), with `zero_fill`, and with every byte there. -/
theorem witness_otherMapper :
    let bytes : List Byte := [0x4E, 0x45, 0x53, 0x1A, 0, 0, 0x10, 0, 0, 0, 0, 0, 0, 0, 0, 0]
    mapperId benchCfg (bytes.getD 6 0) (bytes.getD 7 0) = 1 ∧ bytes.take 4 = [0x4E, 0x45, 0x53, 0x1A] ∧ 8 ≤ bytes.length ∧
    16 + (bytes.getD 4 0).toNat * 16384 ≤ bytes.length ∧
    16 + (bytes.getD 4 0).toNat * 16384 + (bytes.getD 5 0).toNat * 8192 ≤ bytes.length ∧
    benchCfg.chrTruncation = .zeroFill := by decide

/-- SetKeySetsTheButtonAndMirrorsThePrimary: the primary button and the last one. -/
theorem witness_setKey : Memory.wf memSize ldaBench.mem = true ∧ ldaBench.cfg.primaryButton.val = 0 ∧ 7 < 8 := by decide

/-- RestoreOfACaptureReturnsToIt, EveryActionKeepsTheInvariant. -/
theorem witness_inv : ldaBench.Inv ∧ after (step ldaBench) (fun t => t.a) = some 0x80 := ⟨bench_inv, by decide⟩

/-- RestoreRejectsExactlyTheIllFormed: both clauses. -/
theorem witness_snapshot :
    (capture ldaBench).HasShape ∧ ¬Snapshot.HasShape { capture ldaBench with a := 256 } ∧
    Snapshot.HasShape { capture ldaBench with a := 255 } := by
  have h := (snapshot_wf_iff _).mp (capture_wf ldaBench)
  have h255 : ∀ n : Snapshot, n.HasShape → Snapshot.HasShape { n with a := 255 } := fun n hn =>
    ⟨⟨Nat.lt_succ_self 255, hn.registers.2⟩, hn.sizes, hn.bytes, hn.frame, hn.buttons, hn.pend⟩
  exact ⟨h, (test_snapshot_scalars_out_of_range ldaBench).1, h255 _ h⟩

/-- HostTurnDoesTheActionAndRecordsItsReply. -/
theorem witness_hostTurn :
    (hostBench .readFb ldaBench).HostNext .readFb ∧
    hostAction .readFb (hostBench .readFb ldaBench).turnTaken =
      .next ((hostBench .readFb ldaBench).turnTaken, .frame []) := ⟨⟨[], rfl⟩, rfl⟩

/-- OnlyRasterizeLoadAndRestoreWriteTheFramebuffer: a rasterize that changes FB, R-3. -/
theorem witness_fbChanges :
    let s := hostBench .rasterize { ldaBench with pat := [(0x3F00, 0xC5)] }
    s.HostNext .rasterize ∧ ∃ t, step s = .next t ∧ t.fb ≠ s.fb := by
  refine ⟨⟨[], rfl⟩, _, rfl, fun h => ?_⟩
  have hr := congrArg (Memory.read · 0) h
  have hl : ∀ s : State, Memory.read (frameOf s) 0 = colourAt s 0 0 := fun s => by
    rw [frameOf_read, if_pos (by decide)]
    rfl
  exact absurd ((hl _).symm.trans hr) (by decide)

/-- WhatWritesMemoryButtonsCyclesAndStackPointer: a store, the primary key, interrupt service. -/
theorem witness_writes :
    after (step staBench) (fun t => decide (t.mem ≠ staBench.mem ∧ t.cyc ≠ staBench.cyc)) = some true ∧
    after (step (hostBench (.setKey 0 true) ldaBench))
      (fun t => decide (t.mem ≠ ldaBench.mem ∧ t.buttons ≠ ldaBench.buttons)) = some true ∧
    after (step nmiBench) (fun t => decide (t.sp ≠ nmiBench.sp)) = some true := by decide

end Sys2Proof.Tests
end

section
/-! PROOF. The values of the parameters of 00_scope.md R7, the two functions included. -/

namespace Sys2Proof

/-- The mask 0xF0 keeps the high nibble and clears the low one. -/
theorem and_F0_eq_append (b : Byte) : b &&& 0xF0#8 = b.extractLsb' 4 4 ++ 0#4 := by
  have hmask : 0xF0#8 = BitVec.allOnes 4 ++ 0#4 := rfl
  have hsplit : b.extractLsb' 4 4 ++ b.extractLsb' 0 4 = b :=
    (BitVec.extractLsb'_append_extractLsb'_eq_extractLsb' rfl).trans BitVec.extractLsb'_eq_self
  calc b &&& 0xF0#8
      = (b.extractLsb' 4 4 ++ b.extractLsb' 0 4) &&& (BitVec.allOnes 4 ++ 0#4) := by rw [hsplit, hmask]
    _ = b.extractLsb' 4 4 ++ 0#4 := by rw [BitVec.and_append, BitVec.and_allOnes, BitVec.and_zero]

/-- R7's value of MAPPER_ID puts the high nibble of header byte 7 above the high nibble of header byte 6 (D11). -/
theorem mapperId_taken_eq_append (b6 b7 : Byte) :
    mapperId Config.taken b6 b7 = b7.extractLsb' 4 4 ++ b6.extractLsb' 4 4 := by
  have htaken : mapperId Config.taken b6 b7 = b7 &&& 0xF0#8 ||| b6 >>> 4 := mapperId_taken b6 b7
  have hshift : b6 >>> 4 = 0#4 ++ b6.extractLsb' 4 4 := BitVec.ushiftRight_eq_extractLsb'_of_lt (by decide)
  rw [htaken, and_F0_eq_append, hshift, BitVec.or_append, BitVec.or_zero, BitVec.zero_or]

/-- The number of a byte's high nibble. -/
theorem toNat_highNibble (b : Byte) : (b.extractLsb' 4 4).toNat = b.toNat / 16 := by
  have hlt : b.toNat / 16 < 16 := Nat.div_lt_of_lt_mul b.isLt
  rw [BitVec.extractLsb'_toNat, Nat.shiftRight_eq_div_pow, Nat.mod_eq_of_lt hlt]

/-- R7's value of MAPPER_ID as a number (40_cartridge.md R105, D11). -/
theorem mapperId_taken_toNat (b6 b7 : Byte) :
    (mapperId Config.taken b6 b7).toNat = b7.toNat / 16 * 16 + b6.toNat / 16 := by
  rw [mapperId_taken_eq_append, BitVec.toNat_append,
    ← Nat.shiftLeft_add_eq_or_of_lt (b6.extractLsb' 4 4).isLt, Nat.shiftLeft_eq, toNat_highNibble, toNat_highNibble]

/-- Settles O58: the two functions by their values at every argument, each other parameter by its field of the record
`Config.taken` that reset installs. -/
theorem parametersTakenAtReset : Obligations.ParametersTakenAtReset := by
  have hcfg : Machine.State.reset.cfg = Config.taken := rfl
  rw [Obligations.ParametersTakenAtReset, hcfg]
  exact ⟨nmiPushedP_taken, mapperId_taken_toNat, rfl, rfl, rfl, rfl, rfl, rfl, rfl, rfl, rfl, rfl, rfl, rfl, rfl, rfl⟩

end Sys2Proof
end

section
/-! PROOF. What each action keeps of the invariant (O56). -/

namespace Sys2Proof.Machine

section
variable {s : State} (hs : s.Inv)
include hs

theorem State.Inv.setTurns (ts : List Turn) : (s.setTurns ts).Inv := { hs with }

theorem State.Inv.addReply (r : HostReply) : (s.addReply r).Inv := { hs with }

theorem State.Inv.setPhase (ph : Phase) : (s.setPhase ph).Inv := { hs with }

theorem State.Inv.raiseNmi : (raiseNmi s).Inv := { hs with }

theorem State.Inv.setRun (b : Bool) : (setRun b s).Inv := { hs with }

theorem State.Inv.setSpeed (q : Speed) : (setSpeed q s).Inv := { hs with }

theorem State.Inv.rasterize : (rasterize s).Inv := { hs with fb_wf := frameOf_wf s }

/-- A frame starts with ACC = 0, whatever its budget is (60_exceptions.md R211). -/
theorem State.Inv.beginFrame : (beginFrame s).Inv := { hs with acc_bound := Nat.zero_le _ }

theorem State.Inv.setKey (b : Fin 8) (pressed : Bool) : (setKey b pressed s).Inv := by
  have hmem : Memory.wf memSize (Machine.setKey b pressed s).mem = true := setKey_wf hs.mem_wf
  rw [setKey_changes]
  exact { hs with mem_wf := hmem }

/-- A CPU step taken with ACC below the budget costs at most 7: ACC ends at most 6 past it (60_exceptions.md R212). -/
theorem State.Inv.countedStep {t : State} {c : Nat} (hlt : s.acc < s.budget) (h : cpuStep s = .next (t, c)) :
    (t.addAcc c).Inv := by
  have hmem : Memory.wf memSize t.mem = true := cpuStep_mem_wf h hs.mem_wf
  obtain ⟨hframe, -, hcost⟩ := cpuStep_changes h
  have hacc : s.acc + c ≤ s.budget + 6 := by omega
  rw [hframe]
  exact { hs with mem_wf := hmem, acc_bound := hacc }

/-- A load blanks every array or builds it from a list that fits, and its record is one that an image parses to. -/
theorem State.Inv.loadCommit {bytes : List Byte} {cart : Cart} (h : parseCart s.cfg bytes = .ok cart) :
    (loadCommit cart s).Inv := by
  obtain ⟨rfl, hlen⟩ := parseCart_ok h
  exact { hs with
    mem_wf := loadedMem_wf _
    pat_wf := Memory.ofList_wf (by rw [Nat.zero_add]; exact List.length_take_le _ _)
    nt_wf := rfl
    pal_wf := rfl
    fb_wf := rfl
    loaded_cart := rfl
    cart_ok := fun _ hcart => Option.some.inj hcart ▸ cartOf_ok hlen }

/-- A restore builds each array from a list of its size (46_snapshot.md R184). -/
theorem State.Inv.restoreCommit {n : Snapshot} (hn : n.wf = true) : (restoreCommit n s).Inv := by
  have hshape := (snapshot_wf_iff n).mp hn
  obtain ⟨hmem, hpat, hnt, hpal⟩ := hshape.sizes
  exact { hs with
    mem_wf := arrayIn_wf hmem
    pat_wf := arrayIn_wf hpat
    nt_wf := arrayIn_wf hnt
    pal_wf := arrayIn_wf hpal
    fb_wf := arrayIn_wf hshape.frame.1 }

/-- No action of SEQ breaks the invariant. -/
theorem State.Inv.seqTurn {t : State} (h : seqTurn s = .next t) : t.Inv := by
  rcases seqTurn_cases h with ⟨_, _, rfl⟩ | ⟨_, _, rfl⟩ | ⟨_, hlt, u, c, hc, rfl⟩ | ⟨_, _, rfl⟩ | ⟨_, rfl⟩ | ⟨_, rfl⟩
  · exact hs.beginFrame
  · exact hs.setPhase _
  · exact hs.countedStep hlt hc
  · exact hs.rasterize.setPhase _
  · exact hs.raiseNmi.setPhase _
  · exact hs

/-- No host action breaks the invariant. -/
theorem State.Inv.hostAction {action : HostAction} {u : State} {r : HostReply}
    (h : hostAction action s = .next (u, r)) : u.Inv := by
  rcases hostAction_cases h with ⟨_, _, _, hp, rfl, _⟩ | ⟨_, _, _, _, rfl⟩ | ⟨_, _, _, _, rfl⟩ | ⟨_, rfl⟩ |
    ⟨_, _, hn, rfl⟩ | ⟨_, _, rfl⟩ | ⟨_, rfl⟩ | ⟨_, rfl⟩ | ⟨_, rfl⟩ | ⟨_, rfl⟩ | ⟨_, _, rfl⟩ | ⟨_, rfl⟩
  · exact hs.loadCommit hp
  · exact hs
  · exact hs.setKey _ _
  · exact hs
  · exact hs.restoreCommit hn
  · exact hs
  · exact hs
  · exact hs.rasterize
  · exact hs.setRun _
  · exact hs.setRun _
  · exact hs.setSpeed _
  · exact hs.setPhase _

end

/-- Settles O56: taking the turn off the schedule keeps the invariant, then SEQ's action or the host's keeps it. -/
theorem everyActionKeepsTheInvariant : Obligations.EveryActionKeepsTheInvariant := by
  intro s t hs h
  have htaken : s.turnTaken.Inv := hs.setTurns _
  rcases step_inv h with ⟨_, hseq⟩ | ⟨action, u, r, _, hact, rfl⟩
  · exact htaken.seqTurn hseq
  · exact (htaken.hostAction hact).addReply r

end Sys2Proof.Machine
end

section
/-! PROOF. What an action other than a load or a restore can change: the registers, M, IN and CYC (O49, O50, O52). -/

namespace Sys2Proof.Machine

/-- SEQ runs a CPU step, or changes no register, no memory but FB, and no cycle count. -/
theorem seqTurn_step_or_frame {s t : State} (h : seqTurn s = .next t) :
    (s.phase = .stepping ∧ s.acc < s.budget ∧ ∃ u c, cpuStep s = .next (u, c) ∧ t = u.addAcc c) ∨
    t = { s with fb := t.fb, pend := t.pend, acc := t.acc, phase := t.phase, budget := t.budget } := by
  rcases seqTurn_cases h with ⟨_, _, rfl⟩ | ⟨_, _, rfl⟩ | hstep | ⟨_, _, rfl⟩ | ⟨_, rfl⟩ | ⟨_, rfl⟩
  case inr.inr.inl => exact .inl hstep
  all_goals exact .inr rfl

/-- A SetKey that completes names one of the eight buttons (45_input_latch.md R172). -/
theorem hostAction_setKey_inv {b : Nat} {pressed : Bool} {s u : State} {r : HostReply}
    (h : hostAction (.setKey b pressed) s = .next (u, r)) : ∃ hb, u = setKey ⟨b, hb⟩ pressed s := by
  simp only [hostAction] at h
  split at h <;> cases h
  exact ⟨_, rfl⟩

/-- A host action other than a load or a restore is a SetKey, or writes FB, RUN, PHASE and SPEED at most. -/
theorem hostAction_key_or_frame {action : HostAction} {s u : State} {r : HostReply}
    (h : hostAction action s = .next (u, r)) (hload : ∀ bytes, action ≠ .load bytes)
    (hrestore : ∀ input, action ≠ .restore input) :
    (∃ b hb pressed, action = .setKey b pressed ∧ u = setKey ⟨b, hb⟩ pressed s) ∨
    u = { s with fb := u.fb, run := u.run, phase := u.phase, speed := u.speed } := by
  cases action with
  | load bytes => exact absurd rfl (hload bytes)
  | restore input => exact absurd rfl (hrestore input)
  | setKey b pressed =>
    obtain ⟨hb, hu⟩ := hostAction_setKey_inv h
    exact .inl ⟨b, hb, pressed, rfl, hu⟩
  | _ => cases h; exact .inr rfl

/-- A step that is no load and no restore is a CPU step, a SetKey, or leaves every register, M, IN and CYC alone. -/
theorem step_cpu_key_or_frame {s t : State} (h : step s = .next t) (hload : ∀ bytes, ¬s.HostNext (.load bytes))
    (hrestore : ∀ input, ¬s.HostNext (.restore input)) :
    (s.AboutToStep ∧ ∃ u c, cpuStep s.turnTaken = .next (u, c) ∧ t = u.addAcc c) ∨
    (∃ b hb pressed r, s.HostNext (.setKey b pressed) ∧ t = (setKey ⟨b, hb⟩ pressed s.turnTaken).addReply r) ∨
    t = { s with
      fb := t.fb, pend := t.pend, acc := t.acc, run := t.run, phase := t.phase, budget := t.budget,
      speed := t.speed, turns := t.turns, replies := t.replies } := by
  rcases step_inv h with ⟨hturn, hseq⟩ | ⟨action, u, r, hnext, hact, rfl⟩
  · rcases seqTurn_step_or_frame hseq with ⟨hphase, hlt, hstep⟩ | hframe
    · exact .inl ⟨⟨hturn, hphase, hlt⟩, hstep⟩
    · exact .inr (.inr (by rw [hframe]; rfl))
  · rcases hostAction_key_or_frame hact (fun bytes e => hload bytes (e ▸ hnext))
        (fun input e => hrestore input (e ▸ hnext)) with ⟨b, hb, pressed, rfl, rfl⟩ | hframe
    · exact .inr (.inl ⟨b, hb, pressed, r, hnext, rfl⟩)
    · exact .inr (.inr (by rw [hframe]; rfl))

/-- Settles O49: a CPU step has X, Y and the picture memories in its frame, a SetKey writes IN and M only. -/
theorem onlyLoadAndRestoreWriteXYAndPictureMemory : Obligations.OnlyLoadAndRestoreWriteXYAndPictureMemory := by
  intro s t h hload hrestore
  rcases step_cpu_key_or_frame h hload hrestore with ⟨_, u, c, hc, rfl⟩ | ⟨b, hb, pressed, r, _, rfl⟩ | hframe
  · rw [(cpuStep_changes hc).1]
    exact ⟨rfl, rfl, rfl, rfl, rfl⟩
  · rw [setKey_changes]
    exact ⟨rfl, rfl, rfl, rfl, rfl⟩
  · rw [hframe]
    exact ⟨rfl, rfl, rfl, rfl, rfl⟩

/-! ### The status register -/

/-- From the status `p` to `p'` only N, Z and I differ, and I is not cleared (10_state.md R28, R29). -/
def OnlyNamedBitsDiffer (c : Config) (p p' : Byte) : Prop :=
  (∀ j : Fin 8, j ≠ c.bitN → j ≠ c.bitZ → j ≠ c.bitI → p'.getLsbD j = p.getLsbD j) ∧
  (p.getLsbD c.bitI = true → p'.getLsbD c.bitI = true)

theorem OnlyNamedBitsDiffer.refl (c : Config) (p : Byte) : OnlyNamedBitsDiffer c p p := ⟨fun _ _ _ _ => rfl, id⟩

/-- N and Z are written by a load, and neither is I. -/
theorem onlyNamedBitsDiffer_setNZ {c : Config} (hwf : c.wf = true) (v p : Byte) :
    OnlyNamedBitsDiffer c p (setNZ c v p) := by
  obtain ⟨-, hNI, hZI⟩ := bits_distinct hwf
  refine ⟨fun j hN hZ _ => setNZ_other v p hZ hN, fun hI => ?_⟩
  rw [setNZ_other v p hZI.symm hNI.symm, hI]

theorem onlyNamedBitsDiffer_setI (c : Config) (p : Byte) : OnlyNamedBitsDiffer c p (setI c p) := by
  refine ⟨fun j _ _ hI => ?_, fun _ => ?_⟩
  · rw [setI_getLsbD c p j j.isLt, if_neg (fun e => hI (Fin.ext e))]
  · rw [setI_getLsbD c p c.bitI c.bitI.isLt, if_pos rfl]

theorem exec_status {i : Instr} {s t : State} (hwf : s.cfg.wf = true) (h : exec i s = .next t) :
    OnlyNamedBitsDiffer s.cfg s.p t.p := by
  cases i with
  | ldaImm v => cases h; exact onlyNamedBitsDiffer_setNZ hwf v s.p
  | ldaAbs ea => cases h; exact onlyNamedBitsDiffer_setNZ hwf (loadAbs ea s) s.p
  | staAbs ea =>
    cases h
    have hp : (memWrite ea s.a s).p = s.p := memWrite_p ea s.a s
    exact hp.symm ▸ .refl s.cfg s.p
  | jmpAbs ea => cases h; exact .refl _ _
  | unimpl op => cases h; exact .refl _ _

/-- A CPU step runs an instruction, or sets I in interrupt service. -/
theorem cpuStep_status {s t : State} {c : Nat} (hwf : s.cfg.wf = true) (h : cpuStep s = .next (t, c)) :
    OnlyNamedBitsDiffer s.cfg s.p t.p := by
  rcases cpuStep_cases s with ⟨_, hc⟩ | ⟨_, i, rest, u, _, hu, hc⟩ <;> rw [hc] at h <;> cases h
  · rw [interruptService_eq]
    exact onlyNamedBitsDiffer_setI s.cfg s.p
  · exact exec_status hwf hu

/-- Settles O50: among the actions that are no load and no restore, only a CPU step writes P. -/
theorem onlyNamedStatusBitsChange : Obligations.OnlyNamedStatusBitsChange := by
  intro s t hwf h hload hrestore
  show OnlyNamedBitsDiffer s.cfg s.p t.p
  rcases step_cpu_key_or_frame h hload hrestore with ⟨_, u, c, hc, rfl⟩ | ⟨b, hb, pressed, r, _, rfl⟩ | hframe
  · exact cpuStep_status (s := s.turnTaken) (t := u) hwf hc
  · rw [setKey_changes]
    exact .refl _ _
  · rw [hframe]
    exact .refl _ _

/-! ### M, IN, CYC and S -/

/-- Only the primary button has a mirror byte in M (45_input_latch.md R171). -/
theorem setKey_mem_of_ne {b : Fin 8} {s : State} (h : b ≠ s.cfg.primaryButton) (pressed : Bool) :
    (setKey b pressed s).mem = s.mem := by
  unfold setKey
  rw [if_neg h]
  rfl

/-- An instruction does not move the stack pointer; only interrupt service does (10_state.md R24). -/
theorem cpuStep_sp {s t : State} {c : Nat} (h : cpuStep s = .next (t, c)) (hpend : s.pend = false) : t.sp = s.sp := by
  rcases cpuStep_cases s with ⟨hp, _⟩ | ⟨_, i, rest, u, _, hu, hc⟩
  · rw [hp] at hpend
    cases hpend
  · rw [hc] at h
    cases h
    rw [exec_changes hu]

/-- Settles O52: a CPU step may write M and CYC, and S when PEND is 1, but has IN in its frame; a SetKey writes IN, and
M for the primary button. -/
theorem whatWritesMemoryButtonsCyclesAndStackPointer : Obligations.WhatWritesMemoryButtonsCyclesAndStackPointer := by
  intro s t h hload hrestore
  rcases step_cpu_key_or_frame h hload hrestore with ⟨hstep, u, c, hc, rfl⟩ | ⟨b, hb, pressed, r, hnext, rfl⟩ | hframe
  · have hbuttons : u.buttons = s.buttons := by rw [(cpuStep_changes hc).1]; rfl
    refine ⟨fun _ => .inl hstep, absurd hbuttons, fun _ => hstep, fun hne => ⟨hstep, ?_⟩⟩
    by_contra hpend
    exact hne (cpuStep_sp (s := s.turnTaken) (t := u) hc (Bool.eq_false_of_not_eq_true hpend))
  · have hcyc : (setKey ⟨b, hb⟩ pressed s.turnTaken).cyc = s.cyc := by rw [setKey_changes]; rfl
    have hsp : (setKey ⟨b, hb⟩ pressed s.turnTaken).sp = s.sp := by rw [setKey_changes]; rfl
    refine ⟨fun hne => .inr ⟨pressed, ?_⟩, fun _ => ⟨b, pressed, hnext⟩, absurd hcyc, absurd hsp⟩
    have hprimary : (⟨b, hb⟩ : Fin 8) = s.cfg.primaryButton := by
      by_contra hother
      exact hne (setKey_mem_of_ne (s := s.turnTaken) hother pressed)
    rw [← hprimary]
    exact hnext
  · rw [hframe]
    exact ⟨absurd rfl, absurd rfl, absurd rfl, absurd rfl⟩

end Sys2Proof.Machine
end

section
/-! PROOF. What can write the framebuffer and SPEED, and the values at reset (O51, O53, O54). -/

namespace Sys2Proof.Machine

/-- SEQ writes FB only when it rasterizes, at the end of the step loop (60_exceptions.md R213). -/
theorem seqTurn_fb {s t : State} (h : seqTurn s = .next t) :
    t.fb = s.fb ∨ s.phase = .stepping ∧ s.budget ≤ s.acc ∧ t.fb = frameOf s := by
  rcases seqTurn_cases h with ⟨_, _, rfl⟩ | ⟨_, _, rfl⟩ | ⟨_, _, u, c, hc, rfl⟩ | ⟨hphase, hle, rfl⟩ |
    ⟨_, rfl⟩ | ⟨_, rfl⟩
  case inr.inr.inl => exact .inl (by rw [(cpuStep_changes hc).1]; rfl)
  case inr.inr.inr.inl => exact .inr ⟨hphase, hle, rfl⟩
  all_goals exact .inl rfl

/-- The host writes FB by Rasterize, by a restore, and by a load, which blanks it. -/
theorem hostAction_fb {action : HostAction} {s u : State} {r : HostReply}
    (h : hostAction action s = .next (u, r)) :
    u.fb = s.fb ∨ action = .rasterize ∧ u.fb = frameOf s ∨ (∃ input, action = .restore input) ∨
      ∃ bytes, action = .load bytes ∧ u.fb = [] := by
  cases action with
  | load bytes =>
    have hu : load bytes s = (u, r) := Host.Outcome.next.inj h
    rcases load_cases bytes s with ⟨cart, _, hl⟩ | ⟨reason, _, hl⟩ <;> rw [hl] at hu <;> cases hu
    · exact .inr (.inr (.inr ⟨bytes, rfl, rfl⟩))
    · exact .inl rfl
  | restore input => exact .inr (.inr (.inl ⟨input, rfl⟩))
  | rasterize => cases h; exact .inr (.inl ⟨rfl, rfl⟩)
  | setKey b pressed =>
    obtain ⟨hb, rfl⟩ := hostAction_setKey_inv h
    exact .inl (by rw [setKey_changes])
  | _ => cases h; exact .inl rfl

/-- The picture does not depend on the schedule. -/
theorem frameOf_turnTaken (s : State) : frameOf s.turnTaken = frameOf s := frameOf_congr rfl rfl rfl (.inr rfl)

/-- Settles O51: SEQ's rasterize and the host's leave the computed frame, every other writer is a load or a restore. -/
theorem onlyRasterizeLoadAndRestoreWriteTheFramebuffer :
    Obligations.OnlyRasterizeLoadAndRestoreWriteTheFramebuffer := by
  intro s t h hne
  rw [rasterize_fb]
  rcases step_inv h with ⟨hturn, hseq⟩ | ⟨action, u, r, hnext, hact, rfl⟩
  · rcases seqTurn_fb hseq with hkept | ⟨hphase, hle, hfb⟩
    · exact absurd hkept hne
    · exact .inl ⟨hfb.trans (frameOf_turnTaken s), .inl ⟨hturn, hphase, hle⟩⟩
  · rcases hostAction_fb hact with hkept | ⟨rfl, hfb⟩ | ⟨input, rfl⟩ | ⟨bytes, rfl, hfb⟩
    · exact absurd hkept hne
    · exact .inl ⟨hfb.trans (frameOf_turnTaken s), .inr hnext⟩
    · exact .inr (.inl ⟨input, hnext⟩)
    · exact .inr (.inr ⟨bytes, hnext, hfb⟩)

theorem load_speed (bytes : List Byte) (s : State) : (load bytes s).1.speed = s.speed := by
  rcases load_cases bytes s with ⟨cart, _, hl⟩ | ⟨reason, _, hl⟩
  · rw [hl]; rfl
  · rw [hl]

theorem restore_speed (input : RestoreInput) (s : State) : (restore input s).1.speed = s.speed := by
  unfold restore
  cases input with
  | record n => dsimp only; split <;> rfl
  | undecodable => rfl

/-- The host writes SPEED by SetSpeed only (60_exceptions.md R228). -/
theorem hostAction_speed {action : HostAction} {s u : State} {r : HostReply}
    (h : hostAction action s = .next (u, r)) : u.speed = s.speed ∨ ∃ q, action = .setSpeed q ∧ u.speed = q := by
  cases action with
  | load bytes =>
    have hu : (load bytes s).1 = u := congrArg Prod.fst (Host.Outcome.next.inj h)
    exact .inl (hu ▸ load_speed bytes s)
  | restore input =>
    have hu : (restore input s).1 = u := congrArg Prod.fst (Host.Outcome.next.inj h)
    exact .inl (hu ▸ restore_speed input s)
  | setSpeed q => cases h; exact .inr ⟨q, rfl, rfl⟩
  | setKey b pressed =>
    obtain ⟨hb, rfl⟩ := hostAction_setKey_inv h
    exact .inl (by rw [setKey_changes])
  | _ => cases h; exact .inl rfl

/-- Settles O53: neither SEQ nor the host writes a parameter, and of the two only the host's SetSpeed writes SPEED. -/
theorem theConfigurationIsFixed : Obligations.TheConfigurationIsFixed := by
  intro s t h
  rcases step_inv h with ⟨_, hseq⟩ | ⟨action, u, r, hnext, hact, rfl⟩
  · obtain ⟨hcfg, _, _, _, _, _, _, hspeed, _⟩ := seqTurn_keeps hseq
    exact ⟨hcfg, .inl hspeed⟩
  · refine ⟨(hostAction_keeps hact).1, ?_⟩
    rcases hostAction_speed hact with hspeed | ⟨q, rfl, hspeed⟩
    · exact .inl hspeed
    · exact .inr ⟨q, hnext, hspeed⟩

theorem noButtons_getElem (b : Fin 8) : noButtons[b] = false := by
  fin_cases b <;> rfl

/-- Settles O54: every register from R7's column, every array empty, so that each cell reads as 0, and PC the word of
zeros at the reset vector. -/
theorem resetValues : Obligations.ResetValues :=
  ⟨rfl, rfl, rfl, rfl, rfl, rfl, fun _ => rfl, fun _ => ⟨rfl, rfl, rfl, rfl⟩, noButtons_getElem, rfl, rfl, rfl, rfl,
    rfl, rfl, rfl⟩

end Sys2Proof.Machine
end

section
/-! PROOF. What a load maps into M, and the host's turn (O37, O38, O48). -/

namespace Sys2Proof.Machine

/-- An image that parses is committed (40_cartridge.md R110). -/
theorem load_of_parseCart_ok {s : State} {bytes : List Byte} {cart : Cart} (h : parseCart s.cfg bytes = .ok cart) :
    load bytes s = (loadCommit cart s, .ok) := by
  rw [load, h]

@[simp] theorem loadCommit_mem (cart : Cart) (s : State) : (loadCommit cart s).mem = loadedMem cart := rfl

/-- The bank selector gets the number of banks that header byte 4 names (40_cartridge.md R103). -/
theorem prgSizeOf_div_prgBank (bytes : List Byte) : prgSizeOf bytes / prgBank = (bytes.getD 4 0).toNat :=
  Nat.mul_div_cancel _ (by decide)

/-- Mapper 0 maps the banks of the image (20_memory.md R53). -/
theorem loadedMem_of_mapper_zero {c : Config} {bytes : List Byte}
    (h : mapperId c (bytes.getD 6 0) (bytes.getD 7 0) = 0) :
    loadedMem (cartOf c bytes) = mapBanks (prgRegion c bytes) (bytes.getD 4 0).toNat := by
  rw [← prgSizeOf_div_prgBank]
  exact if_pos h

/-- Any other mapper maps nothing (20_memory.md R55). -/
theorem loadedMem_of_mapper_ne_zero {cart : Cart} (h : cart.mapper ≠ 0) : loadedMem cart = [] := if_neg h

@[simp] theorem mapBanks_zero (prg : List Byte) : mapBanks prg 0 = [] := rfl

/-- With at least one bank the first stands in the low window; the high window holds the second, or the first when
there is no other. -/
theorem mapBanks_of_pos (prg : List Byte) {n : Nat} (hn : 1 ≤ n) :
    mapBanks prg n =
      Memory.ofList win0 (bank prg 0) ++ Memory.ofList win1 (bank prg (if n = 1 then 0 else 1)) := by
  rw [mapBanks, if_neg (Nat.ne_of_gt hn)]
  split <;> rfl

section
variable (prg : List Byte) (n : Nat) {i : Nat}

/-- No bank stands below the windows. -/
theorem read_mapBanks_below (hi : i < 0x8000) : Memory.read (mapBanks prg n) i = 0 := by
  rcases Nat.eq_zero_or_pos n with rfl | hn
  · rfl
  · rw [mapBanks_of_pos prg hn, read_windows (bank_length _ _) (bank_length _ _), if_pos (by omega),
      if_neg (by omega)]

variable {n}

/-- The low window holds the first bank. -/
theorem read_mapBanks_win0 (hn : 1 ≤ n) (hi : i < 16384) :
    Memory.read (mapBanks prg n) (0x8000 + i) = (bank prg 0).getD i 0 := by
  rw [mapBanks_of_pos prg hn, read_windows (bank_length _ _) (bank_length _ _), if_pos (by omega),
    if_pos (by omega), Nat.add_sub_cancel_left]

/-- The high window holds the second bank, or the first when there is no other. -/
theorem read_mapBanks_win1 (hn : 1 ≤ n) (i : Nat) :
    Memory.read (mapBanks prg n) (0xC000 + i) = (bank prg (if n = 1 then 0 else 1)).getD i 0 := by
  rw [mapBanks_of_pos prg hn, read_windows (bank_length _ _) (bank_length _ _), if_neg (by omega),
    Nat.add_sub_cancel_left]

end

/-- Bank `k` of an image that declares it, read in the image. -/
theorem declaredBank_getD {c : Config} {bytes : List Byte} {k i : Nat} (hi : i < 16384)
    (hk : k + 1 ≤ (bytes.getD 4 0).toNat) :
    (bank (prgRegion c bytes) k).getD i 0 = bytes.getD (c.headerLen + k * 16384 + i) 0 :=
  bank_getD hi (Nat.mul_le_mul_right 16384 hk)

/-- Settles O37: a load with mapper 0 leaves in M what the bank selector maps, read window by window. -/
theorem mapperZeroMapsTheBanks : Obligations.MapperZeroMapsTheBanks := by
  rintro s t bytes n i hload hmapper rfl
  obtain ⟨rfl, -⟩ := load_ok hload
  rw [loadCommit_mem, loadedMem_of_mapper_zero hmapper]
  refine ⟨read_mapBanks_below _ _, fun hn => ?_, fun hi hn => ?_, fun hi hn => ?_, fun hi hn => ?_⟩
  · rw [hn, mapBanks_zero]
    exact Memory.read_nil i
  · rw [read_mapBanks_win0 _ hn hi, declaredBank_getD hi hn, Nat.zero_mul, Nat.add_zero]
  · rw [read_mapBanks_win1 _ (Nat.le_of_eq hn.symm), if_pos hn, declaredBank_getD hi (Nat.le_of_eq hn.symm),
      Nat.zero_mul, Nat.add_zero]
  · rw [read_mapBanks_win1 _ (Nat.le_of_succ_le hn), if_neg (Nat.ne_of_gt hn), declaredBank_getD hi hn,
      Nat.one_mul]

/-- Settles O38: the image passes every check whatever its mapper is, and its commit leaves M empty. -/
theorem otherMappersMapNothing : Obligations.OtherMappersMapNothing := by
  intro s bytes hmapper hmagic hheader hprg hchr
  have hparse : parseCart s.cfg bytes = .ok (cartOf s.cfg bytes) :=
    parseCart_of_checks (magicOk_iff.mpr hmagic) hheader hprg hchr
  have hmem : loadedMem (cartOf s.cfg bytes) = [] := loadedMem_of_mapper_ne_zero hmapper
  rw [load_of_parseCart_ok hparse]
  refine ⟨rfl, rfl, fun a => ?_⟩
  rw [memRead, loadCommit_mem, hmem]
  exact Memory.read_nil a.toNat

/-- A host turn whose action answers records the reply (log 25). -/
theorem hostTurn_of_next {action : HostAction} {s u : State} {reply : HostReply}
    (h : hostAction action s = .next (u, reply)) : hostTurn action s = .next (u.addReply reply) := by
  rw [hostTurn, h]

/-- Settles O48: a step on a host turn is that turn, from the state with the turn taken off. -/
theorem hostTurnDoesTheActionAndRecordsItsReply : Obligations.HostTurnDoesTheActionAndRecordsItsReply := by
  intro s u action reply hnext haction
  rw [step_of_hostNext hnext, hostTurn_of_next haction]
  rfl

end Sys2Proof.Machine
end

section
/-! PROOF. The decoder against the encoder, the length of an instruction and the dispatch table (O1 to O5). -/

namespace Sys2Proof

section
variable {c : Config} {op : Byte} {more : List Byte}

/-! The decoder at an opcode byte, by the handler of the byte (30_encoding.md R80, R87). -/

theorem decode_of_ldaImm (h : handlerOf c op = .ldaImm) :
    decode c (op :: more) = decodeImm8 op .ldaImm more := by rw [decode, h]

theorem decode_of_ldaAbs (h : handlerOf c op = .ldaAbs) :
    decode c (op :: more) = decodeAbs16 op .ldaAbs more := by rw [decode, h]

theorem decode_of_staAbs (h : handlerOf c op = .staAbs) :
    decode c (op :: more) = decodeAbs16 op .staAbs more := by rw [decode, h]

theorem decode_of_jmpAbs (h : handlerOf c op = .jmpAbs) :
    decode c (op :: more) = decodeAbs16 op .jmpAbs more := by rw [decode, h]

theorem decode_of_unimpl (h : handlerOf c op = .unimpl) :
    decode c (op :: more) = .ok (.unimpl op, more) := by rw [decode, h]

end

/-- Format IMM8 reads exactly the byte it writes (30_encoding.md R82, R84). -/
theorem decodeImm8_eq_ok_iff {op : Byte} {mk : Byte → Instr} {bytes rest : List Byte} {i : Instr} :
    decodeImm8 op mk bytes = .ok (i, rest) ↔ ∃ imm8, i = mk imm8 ∧ bytes = imm8 :: rest := by
  constructor
  · intro h
    match bytes, h with
    | imm8 :: _, rfl => exact ⟨imm8, rfl, rfl⟩
  · rintro ⟨imm8, rfl, rfl⟩
    rfl

/-- Format ABS16 reads exactly the two bytes it writes, the low one first (30_encoding.md R83, R85). -/
theorem decodeAbs16_eq_ok_iff {op : Byte} {mk : Addr → Instr} {bytes rest : List Byte} {i : Instr} :
    decodeAbs16 op mk bytes = .ok (i, rest) ↔
      ∃ addr16, i = mk addr16 ∧ bytes = loByte addr16 :: hiByte addr16 :: rest := by
  constructor
  · intro h
    match bytes, h with
    | lo :: hi :: _, rfl => exact ⟨word16 hi lo, rfl, by rw [loByte_word16, hiByte_word16]⟩
  · rintro ⟨addr16, rfl, rfl⟩
    rw [decodeAbs16, word16_hiByte_loByte]

/-- Settles O2: the opcode byte of each instruction has the instruction's own handler, whose operand format reads back
the operand. -/
theorem decodeOfEncodeIsTheInstruction : Obligations.DecodeOfEncodeIsTheInstruction := by
  intro c i rest hc hi
  obtain ⟨hLdaImm, hLdaAbs, hStaAbs, hJmpAbs⟩ := handlerOf_opcodes hc
  cases i with
  | ldaImm imm8 => exact (decode_of_ldaImm hLdaImm).trans (decodeImm8_eq_ok_iff.mpr ⟨imm8, rfl, rfl⟩)
  | ldaAbs addr16 => exact (decode_of_ldaAbs hLdaAbs).trans (decodeAbs16_eq_ok_iff.mpr ⟨addr16, rfl, rfl⟩)
  | staAbs addr16 => exact (decode_of_staAbs hStaAbs).trans (decodeAbs16_eq_ok_iff.mpr ⟨addr16, rfl, rfl⟩)
  | jmpAbs addr16 => exact (decode_of_jmpAbs hJmpAbs).trans (decodeAbs16_eq_ok_iff.mpr ⟨addr16, rfl, rfl⟩)
  | unimpl op => exact decode_of_unimpl (handlerOf_unimpl_iff.mpr hi)

/-- Settles O3: the handler that reads the operand belongs to one opcode byte, and the encoder writes that byte; a byte
of the default entry is none of the four. -/
theorem encodeOfDecodedIsTheBytes : Obligations.EncodeOfDecodedIsTheBytes := by
  intro c bytes rest i h
  cases bytes with
  | nil => cases h
  | cons op more =>
    have hop := handlerOf_inv (c := c) (op := op)
    cases hh : handlerOf c op <;> rw [hh] at hop
    case ldaImm =>
      obtain ⟨imm8, rfl, rfl⟩ := decodeImm8_eq_ok_iff.mp ((decode_of_ldaImm hh).symm.trans h)
      exact ⟨rfl, hop ▸ rfl⟩
    case ldaAbs =>
      obtain ⟨addr16, rfl, rfl⟩ := decodeAbs16_eq_ok_iff.mp ((decode_of_ldaAbs hh).symm.trans h)
      exact ⟨rfl, hop ▸ rfl⟩
    case staAbs =>
      obtain ⟨addr16, rfl, rfl⟩ := decodeAbs16_eq_ok_iff.mp ((decode_of_staAbs hh).symm.trans h)
      exact ⟨rfl, hop ▸ rfl⟩
    case jmpAbs =>
      obtain ⟨addr16, rfl, rfl⟩ := decodeAbs16_eq_ok_iff.mp ((decode_of_jmpAbs hh).symm.trans h)
      exact ⟨rfl, hop ▸ rfl⟩
    case unimpl =>
      cases (decode_of_unimpl hh).symm.trans h
      exact ⟨hop, rfl⟩

/-- With two bytes after the opcode byte no operand is cut short, and the decoder consumes as many bytes as the
handler's length. -/
theorem decode_consumes_handler_length (c : Config) (op b1 b2 : Byte) (tail : List Byte) :
    ∃ i rest, decode c (op :: b1 :: b2 :: tail) = .ok (i, rest) ∧
      tail.length + 3 = rest.length + (handlerOf c op).length := by
  cases h : handlerOf c op
  case ldaImm => exact ⟨_, _, decode_of_ldaImm h, rfl⟩
  case ldaAbs => exact ⟨_, _, decode_of_ldaAbs h, rfl⟩
  case staAbs => exact ⟨_, _, decode_of_staAbs h, rfl⟩
  case jmpAbs => exact ⟨_, _, decode_of_jmpAbs h, rfl⟩
  case unimpl => exact ⟨_, _, decode_of_unimpl h, rfl⟩

/-- The length of the handler by the opcode byte (30_encoding.md R80 to R83). -/
theorem handlerOf_length (c : Config) (op : Byte) :
    (handlerOf c op).length =
      if op = c.opcLdaImm then 2
      else if op = c.opcLdaAbs ∨ op = c.opcStaAbs ∨ op = c.opcJmpAbs then 3
      else 1 := by
  simp only [handlerOf, apply_ite Handler.length, ite_or]
  rfl

/-- Settles O4: the bytes consumed are the handler's length, which is a function of the opcode byte. -/
theorem opcodeAloneDecidesTheLength : Obligations.OpcodeAloneDecidesTheLength := by
  intro c op more _ hmore
  match more, hmore with
  | b1 :: b2 :: tail, _ =>
    rw [← handlerOf_length]
    exact decode_consumes_handler_length c op b1 b2 tail

/-- An entry of the dispatch table is a handler with its cost (30_encoding.md R87). -/
theorem tableEntry_of_handlerOf {c : Config} {op : Byte} {hd : Handler} (h : handlerOf c op = hd) :
    tableEntry c op = (hd, hd.cost) := by
  rw [tableEntry, h]

/-- The default entry is that of every byte other than the four opcodes (30_encoding.md R87, R88). -/
theorem handlerOf_eq_unimpl {c : Config} {op : Byte} (h1 : op ≠ c.opcLdaImm) (h2 : op ≠ c.opcLdaAbs)
    (h3 : op ≠ c.opcStaAbs) (h4 : op ≠ c.opcJmpAbs) : handlerOf c op = .unimpl := by
  rw [handlerOf, if_neg h1, if_neg h2, if_neg h3, if_neg h4]

/-- Settles O5: each entry from the handler of its opcode byte; the table is a function of the parameters, which no
action writes. -/
theorem dispatchTableEntries : Obligations.DispatchTableEntries := by
  refine ⟨fun c hc => ?_, fun s t hstep op => ?_⟩
  · obtain ⟨hLdaImm, hLdaAbs, hStaAbs, hJmpAbs⟩ := handlerOf_opcodes hc
    exact ⟨tableEntry_of_handlerOf hLdaImm, tableEntry_of_handlerOf hLdaAbs, tableEntry_of_handlerOf hStaAbs,
      tableEntry_of_handlerOf hJmpAbs,
      fun _ h1 h2 h3 h4 => tableEntry_of_handlerOf (handlerOf_eq_unimpl h1 h2 h3 h4)⟩
  · have hcfg : t.cfg = s.cfg := (Machine.theConfigurationIsFixed s t hstep).1
    rw [hcfg]

/-- Settles O1: the opcodes of R7 stand in `Config.taken`, so that the decoder evaluates on each word. -/
theorem writtenWordsDecode : Obligations.WrittenWordsDecode := ⟨rfl, rfl, rfl, rfl, rfl, rfl⟩

end Sys2Proof
end

section
/-! PROOF. The load port: its checks, what a load leaves, and that only a load writes the record (40_cartridge.md; O35,
O36, O39, O41). -/

namespace Sys2Proof.Machine

/-- A load whose image does not parse changes nothing (40_cartridge.md R111). -/
theorem load_of_parseCart_error {s : State} {bytes : List Byte} {reason : FormatError}
    (h : parseCart s.cfg bytes = .error reason) : load bytes s = (s, .formatError reason) := by
  rw [load, h]

/-! Each check that fails, when those before it pass (40_cartridge.md R101, R102, R106, R107). -/

section
variable {c : Config} {bytes : List Byte}

theorem parseCart_of_magic_bad (hm : magicOk c bytes = false) : parseCart c bytes = .error .badMagic := by
  rw [parseCart, if_pos (by rw [hm]; rfl)]

variable (hm : magicOk c bytes = true)
include hm

theorem parseCart_of_header_short (hlen : bytes.length < 8) : parseCart c bytes = .error .truncatedHeader := by
  rw [parseCart, if_neg (by simp [hm]), if_pos hlen]

variable (h8 : 8 ≤ bytes.length)
include h8

theorem parseCart_of_program_short (hlen : bytes.length < c.headerLen + prgSizeOf bytes) :
    parseCart c bytes = .error .truncatedProgram := by
  rw [parseCart, if_neg (by simp [hm]), if_neg (Nat.not_lt.mpr h8), if_pos hlen]

theorem parseCart_of_pattern_short (hprg : c.headerLen + prgSizeOf bytes ≤ bytes.length)
    (hlen : bytes.length < c.headerLen + prgSizeOf bytes + chrSizeOf bytes) (hmode : c.chrTruncation = .formatError) :
    parseCart c bytes = .error .truncatedPattern := by
  have hcut : patternCut c bytes = true := decide_eq_true hlen
  rw [parseCart, if_neg (by simp [hm]), if_neg (Nat.not_lt.mpr h8), if_neg (Nat.not_lt.mpr hprg),
    if_pos (by rw [hmode, hcut]; rfl)]

end

/-- Settles O35: each clause is the outcome of one check, and the state is the one before the load when it fails. -/
theorem loadChecksInOrder : Obligations.LoadChecksInOrder := by
  rintro s bytes _ _ rfl rfl
  refine ⟨fun hne => ?_, fun hmagic => ?_⟩
  · exact load_of_parseCart_error (parseCart_of_magic_bad (Bool.eq_false_iff.mpr (mt magicOk_iff.mp hne)))
  · have hm : magicOk s.cfg bytes = true := magicOk_iff.mpr hmagic
    refine ⟨fun hlen => ?_, fun h8 hlen => ?_, fun h8 hprg hlen hmode => ?_, fun h8 hprg hchr => ?_⟩
    · exact load_of_parseCart_error (parseCart_of_header_short hm hlen)
    · exact load_of_parseCart_error (parseCart_of_program_short hm h8 hlen)
    · exact load_of_parseCart_error (parseCart_of_pattern_short hm h8 hprg hlen hmode)
    · rw [load_of_parseCart_ok (parseCart_of_checks hm h8 hprg hchr.symm)]

/-! ### What a successful load leaves -/

/-- With `vector` PC is the word that the load left at the reset vector (70_reset_and_hazards.md R241). -/
theorem loadCommit_pc_of_vector {cart : Cart} {s : State} (h : s.cfg.resetPcMode = .vector) :
    (loadCommit cart s).pc = memRead16 (loadCommit cart s) resetVector := by
  have hpc : (loadCommit cart s).pc = startPc s.cfg (loadedMem cart) := rfl
  rw [hpc, startPc, h]
  rfl

/-- With `fixed(v)` PC is `v`, whatever the image holds (70_reset_and_hazards.md R241; log 41). -/
theorem loadCommit_pc_of_fixed {cart : Cart} {s : State} {v : Addr} (h : s.cfg.resetPcMode = .fixed v) :
    (loadCommit cart s).pc = v := by
  have hpc : (loadCommit cart s).pc = startPc s.cfg (loadedMem cart) := rfl
  rw [hpc, startPc, h]

/-- Settles O36: the commit is the reset, the record of the image, and PC by the reset mode; the pattern bytes are those
`chrTaken` fills up. -/
theorem loadResetsTheCore : Obligations.LoadResetsTheCore := by
  intro s t bytes hload
  obtain ⟨rfl, -⟩ := load_ok hload
  have hcart : (loadCommit (cartOf s.cfg bytes) s).cart = some (cartOf s.cfg bytes) := rfl
  refine ⟨rfl, rfl, rfl, rfl, rfl, rfl, rfl, rfl, noButtons_getElem, rfl, rfl, rfl,
    ⟨_, hcart, rfl, rfl, rfl, rfl, chrTaken_length s.cfg bytes, chrTaken_getD s.cfg bytes⟩, ?_,
    rfl, rfl, rfl, rfl, rfl, rfl⟩
  split
  · next hmode =>
    rw [loadCommit_pc_of_vector hmode, memRead16, word16_toNat]
    rfl
  · next v hmode => exact loadCommit_pc_of_fixed hmode

/-- Settles O39: a byte of PAT after the commit is the pattern byte the load takes, and that is a byte of the image
inside the region and 0x00 past it or past the image's end. -/
theorem loadFillsThePatternMemory : Obligations.LoadFillsThePatternMemory := by
  intro s t bytes i hload hi
  obtain ⟨rfl, -⟩ := load_ok hload
  exact (loadCommit_pat_read hi).trans (chrTaken_getD s.cfg bytes i)

/-! ### What changes the cartridge record -/

/-- The host changes the record and LOADED by a load that parses, and by nothing else (40_cartridge.md R109, R111,
46_snapshot.md R186). -/
theorem hostAction_cart {action : HostAction} {s u : State} {r : HostReply}
    (h : hostAction action s = .next (u, r)) :
    u.cart = s.cart ∧ u.loaded = s.loaded ∨
    ∃ bytes cart, action = .load bytes ∧ parseCart s.cfg bytes = .ok cart ∧ u.cart = some cart ∧ u.loaded = true := by
  rcases hostAction_cases h with ⟨bytes, cart, hload, hparse, rfl, _⟩ | ⟨_, _, _, _, rfl⟩ | ⟨_, _, _, _, rfl⟩ |
    ⟨_, rfl⟩ | ⟨_, _, _, rfl⟩ | ⟨_, _, rfl⟩ | ⟨_, rfl⟩ | ⟨_, rfl⟩ | ⟨_, rfl⟩ | ⟨_, rfl⟩ | ⟨_, _, rfl⟩ | ⟨_, rfl⟩
  case inl => exact .inr ⟨bytes, cart, hload, hparse, rfl, rfl⟩
  case inr.inr.inl =>
    rw [setKey_changes]
    exact .inl ⟨rfl, rfl⟩
  all_goals exact .inl ⟨rfl, rfl⟩

/-- Settles O41: SEQ keeps the record, and the host's one way to change it is a load that parses. -/
theorem onlyALoadChangesTheCartridge : Obligations.OnlyALoadChangesTheCartridge := by
  intro s t h
  rcases step_inv h with ⟨_, hseq⟩ | ⟨action, u, r, hnext, hact, rfl⟩
  · obtain ⟨_, _, _, _, _, _, _, _, hcart, hloaded, _⟩ := seqTurn_keeps hseq
    exact .inl ⟨hcart, hloaded⟩
  · rcases hostAction_cart hact with hkept | ⟨bytes, cart, rfl, hparse, hcart, hloaded⟩
    · exact .inl hkept
    · exact .inr ⟨bytes, cart, hnext, hparse, hcart, hloaded⟩

end Sys2Proof.Machine
end

section
/-! PROOF. The CPU step: what it runs, what it costs, and what it does not look at (41_cpu_step.md; O6, O7, O12, O16,
O17, O19). -/

namespace Sys2Proof.Machine

/-! ### What a step runs -/

section
variable {s : State}

/-- With PEND = 1 nothing is fetched (41_cpu_step.md R120, 60_exceptions.md R204). -/
theorem cpuStep_of_pend (hp : s.pend = true) : cpuStep s = .next (interruptService s, interruptCost) := by
  rw [cpuStep, if_pos hp]

section
variable {t : State} {i : Instr} {rest : List Byte} (hd : decode s.cfg (fetchBytes s) = .ok (i, rest))
  (ht : exec i s = .next t)
include hd ht

/-- A fetch runs the instruction it decodes, at that instruction's cost (41_cpu_step.md R121). -/
theorem normalFetch_of_decode : normalFetch s = .next (t, i.cost) := by
  rw [normalFetch, hd]
  exact congrArg (swallowFault s i.cost) ht

/-- With PEND = 0 a step is the fetch (41_cpu_step.md R120). -/
theorem cpuStep_of_decode (hp : s.pend = false) : cpuStep s = .next (t, i.cost) := by
  rw [cpuStep, if_neg (Bool.eq_false_iff.mp hp), normalFetch_of_decode hd ht]

end

/-- A step of SEQ in the step loop is the CPU step, its cost counted in ACC (60_exceptions.md R210). -/
theorem step_of_aboutToStep {t : State} {c : Nat} (h : s.AboutToStep) (hc : cpuStep s.turnTaken = .next (t, c)) :
    step s = .next (t.addAcc c) :=
  (step_of_seqNext h.seq_turn).trans (seqTurn_of_stepping (s := s.turnTaken) h.stepping h.cycles_left hc)

end

/-- No instruction counts in ACC: that is the sequencer's doing (60_exceptions.md R210). -/
theorem exec_acc {i : Instr} {s t : State} (h : exec i s = .next t) : t.acc = s.acc := by
  rw [exec_changes h]

theorem interruptService_acc (s : State) : (interruptService s).acc = s.acc := by
  rw [interruptService_eq]

/-- Settles O6: with PEND = 0 the CPU step is the fetch, which runs what the bytes decode to and leaves ACC to SEQ. -/
theorem stepRunsTheDecodedInstruction : Obligations.StepRunsTheDecodedInstruction := by
  intro s i rest hstep hpend hd
  obtain ⟨t, ht⟩ := exec_total i s.turnTaken
  have hc : cpuStep s.turnTaken = .next (t, i.cost) :=
    cpuStep_of_decode (s := s.turnTaken) hd ht hpend
  have hacc : t.acc = s.turnTaken.acc := exec_acc ht
  refine ⟨t, ht, ?_⟩
  rw [step_of_aboutToStep hstep hc, State.addAcc, hacc]
  rfl

/-- Settles O7: with PEND = 1 the CPU step is interrupt service, whose 7 cycles SEQ counts. -/
theorem pendingNmiIsServicedInsteadOfAFetch : Obligations.PendingNmiIsServicedInsteadOfAFetch := by
  intro s hstep hpend
  have hacc : (interruptService s.turnTaken).acc = s.acc := interruptService_acc s.turnTaken
  rw [step_of_aboutToStep hstep (cpuStep_of_pend (s := s.turnTaken) hpend), State.addAcc, hacc, interruptCost]

/-! ### The fallback -/

/-- The fallback changes PC and CYC only (41_cpu_step.md R123). -/
theorem fallback_eq (s : State) : fallback s = { s with pc := s.pc + 1, cyc := s.cyc + 2 } := rfl

theorem exec_unimpl (op : Byte) (s : State) : exec (.unimpl op) s = .next (fallback s) := rfl

/-- Settles O12: a byte that is none of the four opcodes has the default entry, whose meaning is the fallback. -/
theorem fallbackAdvancesThePcByOne : Obligations.FallbackAdvancesThePcByOne := by
  intro s op
  refine ⟨by rw [exec_unimpl, fallback_eq], fun hop h1 h2 h3 h4 => ?_⟩
  subst hop
  have hd := decode_of_unimpl (more := [memRead s (s.pc + 1), memRead s (s.pc + 2)]) (handlerOf_eq_unimpl h1 h2 h3 h4)
  rw [normalFetch_of_decode hd (exec_unimpl _ s), fallback_eq]
  rfl

/-- Settles O19: what swallows the fault is the fallback from the state the step started at, at the fallback's cost. -/
theorem decodeFaultIsSwallowed : Obligations.DecodeFaultIsSwallowed := by
  intro s cost
  rw [swallowFault, fallback_eq]
  rfl

/-! ### The cost -/

/-- Settles O16: every step has CYC + cost in its frame; the cost is that of interrupt service or of the instruction
fetched, which is the only one the bytes decode to. -/
theorem everyStepAddsItsCostToCyc : Obligations.EveryStepAddsItsCostToCyc := by
  intro s
  obtain ⟨t, c, hc⟩ := cpuStep_total s
  obtain ⟨hframe, hcost, -⟩ := cpuStep_changes hc
  have hcyc : t.cyc = s.cyc + c := by rw [hframe]
  refine ⟨t, c, hc, hcyc, hcost, fun hpend => ?_, fun hpend i rest hd => ?_⟩
  · cases hc.symm.trans (cpuStep_of_pend hpend)
    rfl
  · obtain ⟨u, hu⟩ := exec_total i s
    cases hc.symm.trans (cpuStep_of_decode hd hu hpend)
    cases i <;> rfl

/-! ### What a step does not look at -/

section
variable (s other : State)

theorem memWrite_withUnreachable (a : Addr) (v : Byte) :
    memWrite a v (s.withUnreachable other) = (memWrite a v s).withUnreachable other := by
  rw [memWrite, memWrite, apply_ite (State.withUnreachable · other)]
  rfl

theorem push_withUnreachable (v : Byte) : push v (s.withUnreachable other) = (push v s).withUnreachable other :=
  congrArg (State.setSp (s.sp - 1)) (memWrite_withUnreachable s other (stackAddr s.cfg s.sp) v)

theorem savedContext_withUnreachable :
    savedContext (s.withUnreachable other) = (savedContext s).withUnreachable other := by
  simp only [savedContext, push_withUnreachable]
  rfl

/-- Interrupt service reads the pushed context for the vector, and S, P, PC and M for the pushes
(60_exceptions.md R205). -/
theorem interruptService_withUnreachable :
    interruptService (s.withUnreachable other) = (interruptService s).withUnreachable other := by
  rw [interruptService_eq, interruptService_eq, savedContext_withUnreachable]
  rfl

end

/-- An instruction reads its operand, A, P, PC and M only (41_cpu_step.md R127). -/
theorem exec_withUnreachable {i : Instr} {s t : State} (other : State) (h : exec i s = .next t) :
    exec i (s.withUnreachable other) = .next (t.withUnreachable other) := by
  cases i with
  | ldaImm v => cases h; rfl
  | ldaAbs ea => cases h; rfl
  | staAbs ea =>
    cases h
    exact congrArg (fun u => Host.Outcome.next (complete .staAbs u)) (memWrite_withUnreachable s other ea s.a)
  | jmpAbs ea => cases h; rfl
  | unimpl op => cases h; rfl

/-- Settles O17: the values stay by the frame of a step; with other values PEND and the bytes fetched are the same, and
interrupt service and every instruction do the same to the rest. -/
theorem cpuStepIgnoresXYPictureAndButtons : Obligations.CpuStepIgnoresXYPictureAndButtons := by
  intro s other t c h
  refine ⟨by rw [(cpuStep_changes h).1]; rfl, ?_⟩
  rcases cpuStep_cases s with ⟨hpend, hc⟩ | ⟨hpend, i, rest, u, hd, hu, hc⟩ <;> cases h.symm.trans hc
  · rw [cpuStep_of_pend (s := s.withUnreachable other) hpend, interruptService_withUnreachable]
  · exact cpuStep_of_decode (s := s.withUnreachable other) hd (exec_withUnreachable other hu) hpend

end Sys2Proof.Machine
end

section
/-! PROOF. The loads and the store: the whole effect of each, fetched or executed, and what they leave as it was
(42_cpu_load_store.md; O8, O9, O10, O13, O14, O15). -/

namespace Sys2Proof.Machine

/-! ### The fetched instruction -/

/-- A fetch that finds the bytes of a well-formed instruction at PC runs that instruction (30_encoding.md R80). -/
theorem normalFetch_of_encoded {s t : State} {i : Instr} (rest : List Byte) (hc : s.cfg.wf = true)
    (hi : i.wf s.cfg = true) (hbytes : fetchBytes s = encode s.cfg i ++ rest) (ht : exec i s = .next t) :
    normalFetch s = .next (t, i.cost) := by
  have hd : decode s.cfg (fetchBytes s) = .ok (i, rest) := by
    rw [hbytes]
    exact decodeOfEncodeIsTheInstruction s.cfg i rest hc hi
  exact normalFetch_of_decode hd ht

/-- The three bytes at PC are those of format ABS16: the opcode, then the address, low byte first (30_encoding.md
R83). -/
theorem fetchBytes_eq_encodeAbs16 {s : State} {op : Byte} {ea : Addr} (hop : memRead s s.pc = op)
    (hea : (memRead s (s.pc + 2)).toNat * 256 + (memRead s (s.pc + 1)).toNat = ea.toNat) :
    fetchBytes s = encodeAbs16 op ea := by
  rw [← word16_eq hea, encodeAbs16, loByte_word16, hiByte_word16, fetchBytes, hop]

/-! ### The meaning of each load and of the store, as one record update -/

theorem exec_ldaImm (v : Byte) (s : State) :
    exec (.ldaImm v) s = .next { s with a := v, p := setNZ s.cfg v s.p, pc := s.pc + 2, cyc := s.cyc + 2 } := rfl

theorem exec_ldaAbs (ea : Addr) (s : State) :
    exec (.ldaAbs ea) s =
      .next { s with
        a := memRead s ea, p := setNZ s.cfg (memRead s ea) s.p, pc := s.pc + 3, cyc := s.cyc + 4 } := rfl

theorem exec_staAbs (ea : Addr) (s : State) :
    exec (.staAbs ea) s = .next { s with mem := (memWrite ea s.a s).mem, pc := s.pc + 3, cyc := s.cyc + 4 } := by
  have h : exec (.staAbs ea) s = .next (complete .staAbs (memWrite ea s.a s)) := rfl
  rw [h, memWrite_eq]
  rfl

/-! ### What the instructions leave as it was -/

/-- A CPU write changes no byte but the one it names. -/
theorem memRead_memWrite_of_ne {a b : Addr} {v : Byte} {s : State} (hm : Memory.wf memSize s.mem = true)
    (hb : b ≠ a) : memRead (memWrite a v s) b = memRead s b := by
  rw [memRead_memWrite hm, if_neg (fun h => hb h.1.symm)]

/-- The byte a CPU write names: the value written, or the byte as it was in a window that is not writable
(20_memory.md R54). -/
theorem memRead_memWrite_self {a : Addr} {v : Byte} {s : State} (hm : Memory.wf memSize s.mem = true) :
    memRead (memWrite a v s) a =
      if s.cfg.prgWindowWritable = true ∨ a.toNat < 0x8000 then v else memRead s a := by
  simp only [memRead_memWrite hm, true_and, storable_iff]

/-- Only the store has M in what it writes (42_cpu_load_store.md R133). -/
theorem exec_frame_of_not_store {i : Instr} {s t : State} (hi : ∀ ea, i ≠ .staAbs ea) (h : exec i s = .next t) :
    t = { s with a := t.a, p := t.p, pc := t.pc, cyc := t.cyc } := by
  cases i with
  | staAbs ea => exact absurd rfl (hi ea)
  | _ => cases h; rfl

/-- The status after each instruction: only the loads compute flags (42_cpu_load_store.md R130). -/
theorem exec_p {i : Instr} {s t : State} (h : exec i s = .next t) :
    t.p = match i with
      | .ldaImm v => setNZ s.cfg v s.p
      | .ldaAbs ea => setNZ s.cfg (memRead s ea) s.p
      | .staAbs _ => s.p
      | .jmpAbs _ => s.p
      | .unimpl _ => s.p := by
  cases i with
  | staAbs ea => cases (exec_staAbs ea s).symm.trans h; rfl
  | _ => cases h; rfl

/-- Every bit of P but Z and N is kept by every instruction (42_cpu_load_store.md R130). -/
theorem exec_p_other {i : Instr} {s t : State} (h : exec i s = .next t) {j : Fin 8} (hz : j ≠ s.cfg.bitZ)
    (hn : j ≠ s.cfg.bitN) : t.p.getLsbD j = s.p.getLsbD j := by
  rw [exec_p h]
  cases i with
  | ldaImm v => exact setNZ_other v s.p hz hn
  | ldaAbs ea => exact setNZ_other (memRead s ea) s.p hz hn
  | _ => rfl

theorem exec_p_of_not_load {i : Instr} {s t : State} (himm : ∀ v, i ≠ .ldaImm v) (habs : ∀ ea, i ≠ .ldaAbs ea)
    (h : exec i s = .next t) : t.p = s.p := by
  rw [exec_p h]
  cases i with
  | ldaImm v => exact absurd rfl (himm v)
  | ldaAbs ea => exact absurd rfl (habs ea)
  | _ => rfl

/-- Every bit of P after `SetNZ` in a well-formed configuration (42_cpu_load_store.md R130). -/
theorem setNZ_bit {c : Config} (hc : c.wf = true) (v p : Byte) (j : Fin 8) :
    (setNZ c v p).getLsbD j =
      if j = c.bitZ then decide (v = 0) else if j = c.bitN then v.getLsbD 7 else p.getLsbD j := by
  split_ifs with hz hn
  · rw [hz, setNZ_bitZ hc]
  · rw [hn, setNZ_bitN]
  · exact setNZ_other v p hz hn

/-- Interrupt service changes no bit of P but I (10_state.md R28). -/
theorem interruptService_p_other {s : State} {j : Fin 8} (hj : j ≠ s.cfg.bitI) :
    (interruptService s).p.getLsbD j = s.p.getLsbD j := by
  rw [interruptService_eq, setI_getLsbD _ _ _ j.isLt, if_neg (fun e => hj (Fin.ext e))]

/-! ### The obligations -/

/-- Settles O8: P is `SetNZ` of the operand; the bytes at PC are the instruction's encoding and one byte more. -/
theorem ldaImmediateLoadsItsOperand : Obligations.LdaImmediateLoadsItsOperand := by
  intro s v hc
  refine ⟨setNZ s.cfg v s.p, exec_ldaImm v s, setNZ_bitZ hc v s.p, setNZ_bitN v s.p,
    fun _ => setNZ_other v s.p, fun hop hv => ?_⟩
  have hbytes : fetchBytes s = encode s.cfg (.ldaImm v) ++ [memRead s (s.pc + 2)] := by
    rw [fetchBytes, hop, hv]
    rfl
  exact normalFetch_of_encoded _ hc rfl hbytes (exec_ldaImm v s)

/-- Settles O9: P is `SetNZ` of the byte at the address; the bytes at PC are the instruction's encoding. -/
theorem ldaAbsoluteLoadsFromMemory : Obligations.LdaAbsoluteLoadsFromMemory := by
  intro s ea hc
  exact ⟨setNZ s.cfg (memRead s ea) s.p, exec_ldaAbs ea s, setNZ_bitZ hc (memRead s ea) s.p,
    setNZ_bitN (memRead s ea) s.p, fun _ => setNZ_other (memRead s ea) s.p,
    fun hop hea =>
      normalFetch_of_encoded (i := .ldaAbs ea) [] hc rfl (fetchBytes_eq_encodeAbs16 hop hea) (exec_ldaAbs ea s)⟩

/-- Settles O10: M is that of one CPU write of A; the bytes at PC are the instruction's encoding. -/
theorem staAbsoluteStoresTheAccumulator : Obligations.StaAbsoluteStoresTheAccumulator := by
  intro s ea hc hm
  exact ⟨(memWrite ea s.a s).mem, exec_staAbs ea s, memRead_memWrite_self hm, fun _ => memRead_memWrite_of_ne hm,
    fun hop hea =>
      normalFetch_of_encoded (i := .staAbs ea) [] hc rfl (fetchBytes_eq_encodeAbs16 hop hea) (exec_staAbs ea s)⟩

/-- Settles O13: S, X, Y and M from the frame of the instructions that do not store, P bit by bit, and A by the two
forms that load nothing. -/
theorem nonStoringInstructionsFrame : Obligations.NonStoringInstructionsFrame := by
  intro i s t hi h
  have hframe := exec_frame_of_not_store hi h
  have hmem : t.mem = s.mem := by rw [hframe]
  refine ⟨by rw [hframe], by rw [hframe], by rw [hframe], fun b => ?_, ?_, fun _ => exec_p_other h, hframe⟩
  · rw [memRead, hmem, memRead]
  · rintro (⟨target, rfl⟩ | ⟨op, rfl⟩) <;> cases h <;> exact ⟨rfl, rfl⟩

/-- Settles O14: the store is one CPU write, which changes one byte at most; PC and CYC are all it changes beside. -/
theorem storeFrame : Obligations.StoreFrame := by
  intro ea s t hm h
  cases (exec_staAbs ea s).symm.trans h
  exact ⟨rfl, rfl, rfl, rfl, rfl, fun _ => memRead_memWrite_of_ne hm, rfl⟩

/-- Settles O15: a load's status is `SetNZ` of the byte it loads, and I, which interrupt service sets, is neither Z nor
N. -/
theorem onlyLoadsUpdateZeroAndNegative : Obligations.OnlyLoadsUpdateZeroAndNegative := by
  intro s hc
  obtain ⟨-, hNI, hZI⟩ := bits_distinct hc
  refine ⟨fun i v t hload h j => ?_, fun _ _ => exec_p_of_not_load, interruptService_p_other hZI,
    interruptService_p_other hNI⟩
  have hp : t.p = setNZ s.cfg v s.p := by
    rcases hload with rfl | ⟨ea, rfl, rfl⟩ <;> exact exec_p h
  rw [hp]
  exact setNZ_bit hc v s.p j

end Sys2Proof.Machine
end

section
/-! PROOF. The control transfer: the whole effect of JMP abs, fetched or executed (43_cpu_control.md; O11). -/

namespace Sys2Proof.Machine

/-- The meaning of JMP abs as one record update (43_cpu_control.md R140). -/
theorem exec_jmpAbs (target : Addr) (s : State) :
    exec (.jmpAbs target) s = .next { s with pc := target, cyc := s.cyc + 3 } := rfl

/-- Settles O11: the bytes at PC are the instruction's encoding, so the fetch runs it. -/
theorem jmpAbsoluteSetsThePc : Obligations.JmpAbsoluteSetsThePc := by
  intro s target hc
  refine ⟨exec_jmpAbs target s, fun hop hea => ?_⟩
  have hbytes : fetchBytes s = encode s.cfg (.jmpAbs target) ++ [] := fetchBytes_eq_encodeAbs16 hop hea
  exact normalFetch_of_encoded [] hc rfl hbytes (exec_jmpAbs target s)

end Sys2Proof.Machine
end

section
/-! PROOF. The rasterizer: what it reads and writes, each entry from the tile its pixel lies in, and the worked example
(44_picture_unit.md; O32, O33, O34). -/

namespace Sys2Proof.Machine

/-! ### One entry, without the wraps the rules write -/

/-- The tile address is in 0..959, so the wrap by NT's size never changes it (44_picture_unit.md R153). -/
theorem tileIndex_eq (nt : Memory 8) {y x : Nat} (hy : y < 240) (hx : x < 256) :
    tileIndex nt y x = (Memory.read nt (32 * (y / 8) + x / 8)).toNat := by
  have haddr : 32 * (y / 8) + x / 8 < 8192 := by omega
  rw [tileIndex, ntSize, Nat.mod_eq_of_lt haddr]

/-- A tile is named by a byte, so its strip ends below PAT's size and the wrap never changes an address
(44_picture_unit.md R154). -/
theorem planes_eq (pat : Memory 8) {t r : Nat} (ht : t < 256) (hr : r < 8) :
    lowPlane pat t r = Memory.read pat (16 * t + r) ∧ highPlane pat t r = Memory.read pat (16 * t + 8 + r) := by
  have hlo : 16 * t + r < 16384 := by omega
  have hhi : 16 * t + 8 + r < 16384 := by omega
  rw [lowPlane, highPlane, patSize, Nat.mod_eq_of_lt hlo, Nat.mod_eq_of_lt hhi]
  exact ⟨rfl, rfl⟩

/-- The pixel value by the two plane bytes of the tile NT names (44_picture_unit.md R152 to R155). -/
theorem pixelAt_eq {s : State} {y x t : Nat} (hy : y < 240) (hx : x < 256)
    (ht : t = (Memory.read s.nt (32 * (y / 8) + x / 8)).toNat) :
    pixelAt s y x =
      pixelValue (Memory.read s.pat (16 * t + y % 8)) (Memory.read s.pat (16 * t + 8 + y % 8)) (x % 8) := by
  have hbyte : t < 256 := ht ▸ BitVec.isLt _
  obtain ⟨hlo, hhi⟩ := planes_eq s.pat hbyte (Nat.mod_lt y (by decide : 0 < 8))
  rw [pixelAt, tileIndex_eq s.nt hy hx, ← ht, hlo, hhi]

/-- The pixel value with each bit written as a choice. -/
theorem pixelValue_eq_ite (lo hi : Byte) (c : Nat) :
    pixelValue lo hi c = (if lo.getLsbD (7 - c) then 1 else 0) + 2 * (if hi.getLsbD (7 - c) then 1 else 0) := by
  rw [pixelValue, Bool.toNat, Bool.toNat, Bool.cond_eq_ite, Bool.cond_eq_ite]

theorem paletteRead_of_patternSpace {s : State} (h : s.cfg.paletteSource = .patternSpace) (p : Nat) :
    paletteRead s p = Memory.read s.pat (0x3F00 + p) := by
  simp only [paletteRead, h, paletteBase]

/-- PALETTE_BASE is a multiple of PAL's size, so the wrap takes a pixel value to the entry of that index
(20_memory.md R63). -/
theorem paletteRead_of_paletteMemory {s : State} (h : s.cfg.paletteSource = .paletteMemory) {p : Nat} (hp : p < 4) :
    paletteRead s p = Memory.read s.pal p := by
  have hwrap : (0x3F00 + p) % 32 = p := by omega
  simp only [paletteRead, h, paletteBase, palSize, hwrap]

/-- Settles O32: the pixel value is that of the tile's planes, both palette sources hold its colour byte, and the writer
keeps the low 6 bits. -/
theorem rasterizedEntryIsTheTilePixel : Obligations.RasterizedEntryIsTheTilePixel := by
  intro s y x t p lo hi e hy hx ht hlo hhi hp he
  have hpixel : pixelAt s y x = p := by
    rw [pixelAt_eq hy hx ht, ← hlo, ← hhi, pixelValue_eq_ite, hp]
  have hcolour : paletteRead s p = e := by
    rw [he]
    cases hsource : s.cfg.paletteSource with
    | patternSpace => exact paletteRead_of_patternSpace hsource p
    | paletteMemory => exact paletteRead_of_paletteMemory hsource (hpixel ▸ pixelValue_lt _ _ _)
  rw [rasterize_entry s hy hx, colourAt, hpixel, hcolour]
  exact BitVec.toNat_setWidth 6 e

/-! ### What a rasterize reads and writes -/

/-- A rasterize reads nothing it writes (44_picture_unit.md R158). -/
theorem frameOf_rasterize (s : State) : frameOf (rasterize s) = frameOf s :=
  frameOf_congr rfl rfl rfl (.inr rfl)

/-- Settles O33: FB is the only field written, and the frame written into it is a function of picture memory. -/
theorem rasterizeDependsOnlyOnPictureMemory : Obligations.RasterizeDependsOnlyOnPictureMemory := by
  intro s s'
  exact ⟨rfl, congrArg (State.setFb · s) (frameOf_rasterize s), frameOf_congr⟩

/-! ### The worked example (44_picture_unit.md R161) -/

/-- PAT of the worked example: row 0 of tile 1 in both planes, and the four colours. -/
def examplePat : Memory 8 :=
  [(0x10, 0xA0), (0x18, 0xC0), (0x3F00, 0x0F), (0x3F01, 0x16), (0x3F02, 0x2A), (0x3F03, 0xFF)]

/-- Below the colours every byte but the two plane bytes is zero. -/
theorem read_examplePat_zero {a : Nat} (hlow : a ≠ 0x10) (hhigh : a ≠ 0x18) (ha : a < 0x3F00) :
    Memory.read examplePat a = 0 := by
  simp only [examplePat, Memory.read_cons]
  rw [if_neg (by omega), if_neg (by omega), if_neg (by omega), if_neg (by omega), if_neg (by omega),
    if_neg (by omega)]
  exact Memory.read_nil a

theorem pixelValue_zero (c : Nat) : pixelValue 0 0 c = 0 := by
  simp [pixelValue]

section
variable {s : State} (hnt : s.nt = [(0, 0x01)]) (hpat : s.pat = examplePat)
include hnt hpat

/-- Row 0 of the first tile is that of tile 1. -/
theorem pixelAt_example_row0 {x : Nat} (hx : x < 8) : pixelAt s 0 x = pixelValue 0xA0 0xC0 x := by
  have hx0 : x / 8 = 0 := Nat.div_eq_of_lt hx
  have htile : 1 = (Memory.read s.nt (32 * (0 / 8) + x / 8)).toNat := by rw [hnt, hx0]; rfl
  rw [pixelAt_eq (by decide) (by omega) htile, hpat, Nat.mod_eq_of_lt hx]
  rfl

/-- Every pixel after the first eight is 0: in the first tile because the other rows of tile 1 are empty, elsewhere
because tile 0 is. -/
theorem pixelAt_example_zero {y x : Nat} (hy : y < 240) (hx : x < 256) (hafter : 0 < y ∨ 8 ≤ x) :
    pixelAt s y x = 0 := by
  obtain ⟨t, ht, hrow⟩ : ∃ t, t = (Memory.read s.nt (32 * (y / 8) + x / 8)).toNat ∧ (t = 0 ∨ t = 1 ∧ 0 < y % 8) := by
    by_cases hfirst : 0 = 32 * (y / 8) + x / 8
    · exact ⟨1, by rw [hnt, ← hfirst]; rfl, .inr ⟨rfl, by omega⟩⟩
    · exact ⟨0, by rw [hnt, Memory.read_cons, if_neg hfirst]; rfl, .inl rfl⟩
  have hlo : Memory.read examplePat (16 * t + y % 8) = 0 :=
    read_examplePat_zero (by omega) (by omega) (by omega)
  have hhi : Memory.read examplePat (16 * t + 8 + y % 8) = 0 :=
    read_examplePat_zero (by omega) (by omega) (by omega)
  rw [pixelAt_eq hy hx ht, hpat, hlo, hhi, pixelValue_zero]

end

/-- Settles O34: the first eight entries by the colours of row 0's pixel values, every other one by that of 0. -/
theorem rasterizerExample : Obligations.RasterizerExample := by
  intro s hsource hnt hpat
  replace hpat : s.pat = examplePat := hpat
  have hcolour (y x : Nat) : colourAt s y x = (Memory.read examplePat (0x3F00 + pixelAt s y x)).setWidth 6 := by
    rw [colourAt, paletteRead_of_patternSpace hsource, hpat]
  have hentry {y x : Nat} (hy : y < 240) (hx : x < 256) := (rasterize_entry s hy hx).trans (hcolour y x)
  refine ⟨?_, fun i hi hsize => ?_⟩
  · have hrow : ∀ x ∈ List.range 8, Memory.read (rasterize s).fb x =
        (Memory.read examplePat (0x3F00 + pixelValue 0xA0 0xC0 x)).setWidth 6 := by
      intro x hx
      have hx8 := List.mem_range.mp hx
      rw [← pixelAt_example_row0 hnt hpat hx8, ← hentry (by decide) (by omega), fbIndex, Nat.mul_zero, Nat.zero_add]
    rw [List.map_congr_left hrow]
    decide
  · have hindex : fbIndex (i / 256) (i % 256) = i := Nat.div_add_mod i 256
    have hzero := pixelAt_example_zero hnt hpat (y := i / 256) (x := i % 256) (by omega) (by omega) (by omega)
    rw [← hindex, hentry (by omega) (by omega), hzero]
    rfl

end Sys2Proof.Machine
end

section
/-! PROOF. The input port: what `SetKey` writes and what it refuses (O42, O43). -/

namespace Sys2Proof.Machine

/-- What the port answers to a button index in 0..7. -/
theorem hostAction_setKey_of_lt {b : Nat} (hb : b < 8) (pressed : Bool) (s : State) :
    hostAction (.setKey b pressed) s = .next (setKey ⟨b, hb⟩ pressed s, .nothing) :=
  dif_pos hb

/-- What the port answers to any other button index (45_input_latch.md R172, D22). -/
theorem hostAction_setKey_of_ge {b : Nat} (hb : 8 ≤ b) (pressed : Bool) (s : State) :
    hostAction (.setKey b pressed) s = .refused (.buttonOutOfRange b) :=
  dif_neg (Nat.not_lt.mpr hb)

/-- `SetKey` writes the named button and no other (45_input_latch.md R170). -/
theorem setKey_buttons_getElem (b k : Fin 8) (pressed : Bool) (s : State) :
    (setKey b pressed s).buttons[k] = if k.val = b.val then pressed else s.buttons[k] := by
  simp only [setKey_buttons, Fin.getElem_fin, Vector.getElem_set, eq_comm]

/-- `SetKey` writes the byte at INPUT_ADDR when the button is the primary one, and no other byte
(45_input_latch.md R171, D21). -/
theorem memRead_setKey {s : State} (hm : Memory.wf memSize s.mem = true) (b : Fin 8) (pressed : Bool) (a : Addr) :
    memRead (setKey b pressed s) a =
      if b = s.cfg.primaryButton ∧ a = s.cfg.inputAddr then inputByte s.cfg pressed else memRead s a := by
  by_cases hb : b = s.cfg.primaryButton
  · have hpoke : setKey b pressed s =
        pokeByte s.cfg.inputAddr (inputByte s.cfg pressed) (setButton b pressed s) := if_pos hb
    have hkept : memRead (setButton b pressed s) a = memRead s a := rfl
    rw [hpoke, memRead_pokeByte (s := setButton b pressed s) hm, hkept]
    simp only [hb, true_and, eq_comm]
  · rw [if_neg (fun h => hb h.1), memRead, setKey_mem_of_ne hb, memRead]

/-- Settles O42: the port runs `setKey`, whose buttons, bytes and frame are three lemmas above. -/
theorem setKeySetsTheButtonAndMirrorsThePrimary : Obligations.SetKeySetsTheButtonAndMirrorsThePrimary := by
  intro s b hb pressed hm
  refine ⟨setKey ⟨b, hb⟩ pressed s, hostAction_setKey_of_lt hb pressed s, fun k => ?_, fun a => ?_, ?_⟩
  · exact setKey_buttons_getElem ⟨b, hb⟩ k pressed s
  · simp only [memRead_setKey hm, inputByte, Fin.ext_iff]
  · exact setKey_changes ⟨b, hb⟩ pressed s

/-- Settles O43: the port's answer to every index from 8 on. -/
theorem keyOutsideTheEightIsRefused : Obligations.KeyOutsideTheEightIsRefused := by
  intro s b pressed hb
  exact hostAction_setKey_of_ge hb pressed s

end Sys2Proof.Machine
end

section
/-! PROOF. The snapshot port: what a capture holds, what a restore writes and refuses, and that replies stay
(46_snapshot.md; O44, O45, O46, O57). -/

namespace Sys2Proof.Machine

/-! ### What a capture holds -/

theorem capture_hasShape (s : State) : (capture s).HasShape := (snapshot_wf_iff _).mp (capture_wf s)

theorem capture_buttons_getElem? (s : State) (b : Fin 8) :
    (capture s).buttons[b.val]? = some s.buttons[b].toNat := by
  have hb : b.val < s.buttons.toList.length := by simp
  rw [capture_buttons, List.getElem?_map, List.getElem?_eq_getElem hb]
  rfl

/-- Settles O57: the registers, CYC and PEND as numbers, each array by its list, IN by its eight bits. -/
theorem captureHoldsEveryComponent : Obligations.CaptureHoldsEveryComponent := by
  intro s
  refine ⟨capture_hasShape s, rfl, rfl, rfl, rfl, rfl, rfl, fun a => ?_, fun i hi => ?_, fun i hi => ?_, fun i hi => ?_,
    fun y hy x hx => ?_, capture_buttons_getElem? s, rfl, rfl⟩
  · have ha : a.toNat < memSize := a.isLt
    rw [capture_mem, arrayOut_getElem? ha, memRead]
  · rw [capture_pat]
    exact arrayOut_getElem? hi
  · rw [capture_nt]
    exact arrayOut_getElem? hi
  · rw [capture_pal]
    exact arrayOut_getElem? hi
  · have hin : 256 * y + x < fbSize := by rw [fbSize]; omega
    rw [capture_fb, arrayOut_getElem? hin, fbIndex, fbWidth]

/-! ### What a restore writes -/

/-- A restore of a well-formed snapshot succeeds (46_snapshot.md R183). -/
theorem restore_of_hasShape {n : Snapshot} (hn : n.HasShape) (s : State) :
    restore (.record n) s = (restoreCommit n s, .ok) :=
  if_pos ((snapshot_wf_iff n).mpr hn)

/-- A restore of any other record fails (46_snapshot.md R184). -/
theorem restore_of_not_hasShape {n : Snapshot} (hn : ¬n.HasShape) (s : State) :
    restore (.record n) s = (s, .snapshotError .corrupt) :=
  if_neg (fun h => hn ((snapshot_wf_iff n).mp h))

/-- A number that is a bit comes back from it. -/
theorem beq_one_toNat {k : Nat} (hk : k = 0 ∨ k = 1) : (k == 1).toNat = k := by
  rcases hk with rfl | rfl <;> rfl

/-- What a restore of a capture writes: each component reads its own field back, an array because it is in canonical
form (46_snapshot.md R185; log 33). -/
theorem restoreCommit_capture {s : State} (hs : s.Inv) (u : State) :
    restoreCommit (capture s) u =
      { u with
        a := s.a, x := s.x, y := s.y, sp := s.sp, p := s.p, pc := s.pc, mem := s.mem, pat := s.pat, nt := s.nt,
        pal := s.pal, fb := s.fb, buttons := s.buttons, cyc := s.cyc, pend := s.pend } := by
  simp only [restoreCommit, capture, BitVec.ofNat_toNat, BitVec.setWidth_eq, arrayIn_arrayOut hs.mem_wf,
    arrayIn_arrayOut hs.pat_wf, arrayIn_arrayOut hs.nt_wf, arrayIn_arrayOut hs.pal_wf, arrayIn_arrayOut hs.fb_wf,
    buttonsIn_out, Bool.toNat_beq_one]

/-- Settles O44: a capture is well-formed, so it is restored, and every component comes back from its field. -/
theorem restoreOfACaptureReturnsToIt : Obligations.RestoreOfACaptureReturnsToIt := by
  intro s u hs
  rw [restore_of_hasShape (capture_hasShape s), restoreCommit_capture hs]

/-- The bytes of each array of a well-formed snapshot. -/
theorem Snapshot.HasShape.array_bytes {n : Snapshot} (hn : n.HasShape) :
    (∀ v ∈ n.mem, v < 256) ∧ (∀ v ∈ n.pat, v < 256) ∧ (∀ v ∈ n.nt, v < 256) ∧ (∀ v ∈ n.pal, v < 256) := by
  have hbytes := hn.bytes
  simp only [List.forall_mem_append] at hbytes
  obtain ⟨⟨⟨hmem, hpat⟩, hnt⟩, hpal⟩ := hbytes
  exact ⟨hmem, hpat, hnt, hpal⟩

/-- Settles O45: the check is the shape; a field of that shape fits its component, so the component has its value. -/
theorem restoreRejectsExactlyTheIllFormed : Obligations.RestoreRejectsExactlyTheIllFormed := by
  intro n s
  refine ⟨fun hn => restore_of_not_hasShape hn s, fun hn => ⟨restoreCommit n s, restore_of_hasShape hn s, ?_⟩, rfl⟩
  obtain ⟨ha, hx, hy, hsp, hp, hpc⟩ := hn.registers
  obtain ⟨hmem, hpat, hnt, hpal⟩ := hn.array_bytes
  exact ⟨Nat.mod_eq_of_lt ha, Nat.mod_eq_of_lt hx, Nat.mod_eq_of_lt hy,
    Nat.mod_eq_of_lt hsp, Nat.mod_eq_of_lt hp, Nat.mod_eq_of_lt hpc,
    fun i => ⟨arrayIn_read rfl hmem i, arrayIn_read rfl hpat i, arrayIn_read rfl hnt i, arrayIn_read rfl hpal i,
      arrayIn_read rfl hn.frame.2 i⟩,
    buttonsIn_toNat hn.buttons.2, rfl, beq_one_toNat hn.pend, rfl⟩

/-! ### What the host got back -/

/-- Settles O46: SEQ's action keeps the replies, and the host's adds its own in front of those it found. -/
theorem capturedSnapshotsNeverChange : Obligations.CapturedSnapshotsNeverChange := by
  intro s t h
  rcases step_inv h with ⟨_, hseq⟩ | ⟨action, u, r, _, hact, rfl⟩
  · obtain ⟨-, -, -, -, -, -, -, -, -, -, hreplies, -⟩ := seqTurn_keeps hseq
    exact ⟨[], hreplies, Nat.zero_le 1⟩
  · obtain ⟨-, hreplies, -⟩ := hostAction_keeps hact
    exact ⟨[r], congrArg (r :: ·) hreplies, Nat.le_refl 1⟩

end Sys2Proof.Machine
end

section
/-! PROOF. What a step can refuse, interrupt service, and what sets and clears PEND (60_exceptions.md; O20, O22, O23,
O24, O47). -/

namespace Sys2Proof.Machine

/-! ### What is refused, and the plain ports -/

/-- Every turn is SEQ's or the host's (20_memory.md R70). -/
theorem seqNext_or_hostNext (s : State) : s.SeqNext ∨ ∃ action, s.HostNext action := by
  match h : s.turns with
  | [] => exact .inl (.inl h)
  | .seq :: rest => exact .inl (.inr ⟨rest, h⟩)
  | .host action :: rest => exact .inr ⟨action, rest, h⟩

/-- A host turn whose action is refused is refused. -/
theorem hostTurn_of_refused {action : HostAction} {s : State} {reason : Refusal}
    (h : hostAction action s = .refused reason) : hostTurn action s = .refused reason := by
  rw [hostTurn, h]

/-- Settles O20: SEQ's action always answers, and the host's answers or is a SetKey out of range. -/
theorem onlyOutOfRangeKeysAreRefused : Obligations.OnlyOutOfRangeKeysAreRefused := by
  intro s
  rcases seqNext_or_hostNext s with hturn | ⟨action, hnext⟩
  · obtain ⟨t, ht⟩ := seqTurn_total s.turnTaken
    exact .inl ⟨t, (step_of_seqNext hturn).trans ht⟩
  · rcases hostAction_total action s.turnTaken with ⟨u, r, h⟩ | ⟨b, pressed, rfl, hb, h⟩
    · exact .inl ⟨u.addReply r, (step_of_hostNext hnext).trans (hostTurn_of_next h)⟩
    · exact .inr ⟨b, pressed, hnext, hb, (step_of_hostNext hnext).trans (hostTurn_of_refused h)⟩

/-- Settles O47: each port is by definition the one update the table gives. -/
theorem plainPortsDoWhatTheTableSays : Obligations.PlainPortsDoWhatTheTableSays :=
  fun _ _ => ⟨rfl, rfl, rfl, rfl, rfl, rfl, rfl⟩

/-! ### Interrupt service -/

/-- A byte of M after interrupt service, with the three addresses numbered from S down (60_exceptions.md R205). -/
theorem memRead_interruptService_pushes {s : State} (hm : Memory.wf memSize s.mem = true) (b : Addr) :
    memRead (interruptService s) b =
      if stackAddr s.cfg (s.sp - 2) = b ∧ storable s.cfg (stackAddr s.cfg (s.sp - 2)) = true
      then nmiPushedP s.cfg s.p
      else if stackAddr s.cfg (s.sp - 1) = b ∧ storable s.cfg (stackAddr s.cfg (s.sp - 1)) = true
      then loByte s.pc
      else if stackAddr s.cfg s.sp = b ∧ storable s.cfg (stackAddr s.cfg s.sp) = true then hiByte s.pc
      else memRead s b := by
  rw [memRead_interruptService, memRead_savedContext hm, (sp_sub_three s.sp).1]

section
variable {s : State} (hm : Memory.wf memSize s.mem = true)
include hm

theorem memRead_interruptService_status (hst : storable s.cfg (stackAddr s.cfg (s.sp - 2)) = true) :
    memRead (interruptService s) (stackAddr s.cfg (s.sp - 2)) = nmiPushedP s.cfg s.p := by
  rw [memRead_interruptService_pushes hm, if_pos ⟨rfl, hst⟩]

/-- The status, pushed after PC-low, lands elsewhere. -/
theorem memRead_interruptService_pcLow (hst : storable s.cfg (stackAddr s.cfg (s.sp - 1)) = true) :
    memRead (interruptService s) (stackAddr s.cfg (s.sp - 1)) = loByte s.pc := by
  obtain ⟨-, -, h12⟩ := sp_pushes_ne s.sp
  rw [memRead_interruptService_pushes hm, if_neg (fun h => stackAddr_ne h12.symm h.1), if_pos ⟨rfl, hst⟩]

/-- PC-low and the status, pushed after PC-high, land elsewhere. -/
theorem memRead_interruptService_pcHigh (hst : storable s.cfg (stackAddr s.cfg s.sp) = true) :
    memRead (interruptService s) (stackAddr s.cfg s.sp) = hiByte s.pc := by
  obtain ⟨h01, h02, -⟩ := sp_pushes_ne s.sp
  rw [memRead_interruptService_pushes hm, if_neg (fun h => stackAddr_ne h02.symm h.1),
    if_neg (fun h => stackAddr_ne h01.symm h.1), if_pos ⟨rfl, hst⟩]

/-- A byte no push names, or one a push cannot store, stays. -/
theorem memRead_interruptService_other {b : Addr}
    (hb : (b ≠ stackAddr s.cfg s.sp ∧ b ≠ stackAddr s.cfg (s.sp - 1) ∧ b ≠ stackAddr s.cfg (s.sp - 2)) ∨
      storable s.cfg b = false) : memRead (interruptService s) b = memRead s b := by
  have hmiss {a : Addr} (hne : b ≠ a ∨ storable s.cfg b = false) : ¬(a = b ∧ storable s.cfg a = true) := by
    rintro ⟨rfl, hst⟩
    rcases hne with hne | hno
    · exact hne rfl
    · exact Bool.eq_false_iff.mp hno hst
  rw [memRead_interruptService_pushes hm, if_neg (hmiss (hb.imp_left fun h => h.2.2)),
    if_neg (hmiss (hb.imp_left fun h => h.2.1)), if_neg (hmiss (hb.imp_left fun h => h.1))]

end

/-- PC after interrupt service is the NMI vector as the pushes left it (60_exceptions.md R205). -/
theorem interruptService_pc (s : State) : (interruptService s).pc = memRead16 (interruptService s) nmiVector := by
  rw [memRead16, memRead_interruptService, memRead_interruptService, interruptService_eq, memRead16]

/-- The bits of P after interrupt service: I set, the others kept (10_state.md R28). -/
theorem interruptService_p_bit (s : State) (j : Fin 8) :
    (interruptService s).p.getLsbD j = if j = s.cfg.bitI then true else s.p.getLsbD j := by
  rw [interruptService_eq, setI_getLsbD _ _ _ j.isLt]
  simp only [Fin.ext_iff]

theorem interruptService_pend (s : State) : (interruptService s).pend = false := by
  rw [interruptService_eq]

/-- With windows that are not writable no CPU write to a window is stored (20_memory.md R54). -/
theorem storable_of_window {c : Config} {a : Addr} (hc : c.prgWindowWritable = false) (ha : 0x8000 ≤ a.toNat) :
    storable c a = false := by
  rw [Bool.eq_false_iff, ne_eq, storable_iff]
  rintro (hwritable | hbelow)
  · exact Bool.eq_false_iff.mp hc hwritable
  · exact Nat.not_lt.mpr ha hbelow

/-- Settles O22: the three pushed bytes and every other byte by the lemmas above, the rest by the frame of interrupt
service. -/
theorem interruptServicePushesPcAndStatus : Obligations.InterruptServicePushesPcAndStatus := by
  rintro s _ _ _ _ hm rfl rfl rfl rfl
  refine ⟨fun h => ?_, fun h => ?_, fun h => ?_, fun b hb => ?_, ?_, interruptService_p_bit s, ?_⟩
  · rw [← hiByte_toNat]
    exact congrArg BitVec.toNat (memRead_interruptService_pcHigh hm (storable_iff.mpr h))
  · rw [← loByte_toNat]
    exact congrArg BitVec.toNat (memRead_interruptService_pcLow hm (storable_iff.mpr h))
  · exact memRead_interruptService_status hm (storable_iff.mpr h)
  · exact memRead_interruptService_other hm (hb.imp_right fun h => storable_of_window h.1 h.2)
  · rw [interruptService_pc, memRead16, word16_toNat]
    rfl
  · rw [interruptService_eq, (sp_sub_three s.sp).2]
    rfl

/-- Settles O23: the status is not looked at before interrupt service is taken. -/
theorem nmiIsTakenWhateverTheStatus : Obligations.NmiIsTakenWhateverTheStatus := by
  intro s p hpend
  exact ⟨_, cpuStep_of_pend (s := { s with p := p }) hpend, rfl, interruptService_pend _⟩

/-! ### What sets and clears PEND -/

/-- SEQ raises the NMI after the rasterize, a CPU step leaves none pending, and no other action of SEQ writes PEND. -/
theorem seqTurn_pend {s t : State} (h : seqTurn s = .next t) :
    t.pend = s.pend ∨ s.phase = .rendered ∧ t.pend = true ∨
      s.phase = .stepping ∧ s.acc < s.budget ∧ t.pend = false := by
  rcases seqTurn_cases h with ⟨_, _, rfl⟩ | ⟨_, _, rfl⟩ | ⟨hphase, hlt, u, c, hc, rfl⟩ | ⟨_, _, rfl⟩ | ⟨hphase, rfl⟩ |
    ⟨_, rfl⟩
  case inr.inr.inl => exact .inr (.inr ⟨hphase, hlt, by rw [(cpuStep_changes hc).1]; rfl⟩)
  case inr.inr.inr.inr.inl => exact .inr (.inl ⟨hphase, rfl⟩)
  all_goals exact .inl rfl

/-- The host writes PEND by a load, which clears it, and by a restore, which takes the snapshot's. -/
theorem hostAction_pend {action : HostAction} {s u : State} {r : HostReply}
    (h : hostAction action s = .next (u, r)) :
    u.pend = s.pend ∨ (∃ bytes, action = .load bytes ∧ u.pend = false) ∨
      ∃ n, action = .restore (.record n) ∧ n.HasShape ∧ u.pend = (n.pend == 1) := by
  rcases hostAction_cases h with ⟨bytes, _, hload, _, rfl, _⟩ | ⟨_, _, _, _, rfl⟩ | ⟨_, _, _, _, rfl⟩ | ⟨_, rfl⟩ |
    ⟨n, hrestore, hwf, rfl⟩ | ⟨_, _, rfl⟩ | ⟨_, rfl⟩ | ⟨_, rfl⟩ | ⟨_, rfl⟩ | ⟨_, rfl⟩ | ⟨_, _, rfl⟩ | ⟨_, rfl⟩
  case inl => exact .inr (.inl ⟨bytes, hload, rfl⟩)
  case inr.inr.inl => exact .inl (by rw [setKey_changes])
  case inr.inr.inr.inr.inl => exact .inr (.inr ⟨n, hrestore, (snapshot_wf_iff n).mp hwf, rfl⟩)
  all_goals exact .inl rfl

/-- What a step can do to PEND: leave it, or write it in one of four named ways (60_exceptions.md R202). -/
theorem step_pend {s t : State} (h : step s = .next t) :
    t.pend = s.pend ∨ (s.SeqNext ∧ s.phase = .rendered) ∧ t.pend = true ∨ s.AboutToStep ∧ t.pend = false ∨
      (∃ bytes, s.HostNext (.load bytes)) ∧ t.pend = false ∨
      ∃ n, s.HostNext (.restore (.record n)) ∧ n.HasShape ∧ t.pend = (n.pend == 1) := by
  rcases step_inv h with ⟨hturn, hseq⟩ | ⟨action, u, r, hnext, hact, rfl⟩
  · rcases seqTurn_pend hseq with hkept | ⟨hphase, hset⟩ | ⟨hphase, hlt, hclear⟩
    · exact .inl hkept
    · exact .inr (.inl ⟨⟨hturn, hphase⟩, hset⟩)
    · exact .inr (.inr (.inl ⟨⟨hturn, hphase, hlt⟩, hclear⟩))
  · rcases hostAction_pend hact with hkept | ⟨bytes, rfl, hclear⟩ | ⟨n, rfl, hshape, hpend⟩
    · exact .inl hkept
    · exact .inr (.inr (.inr (.inl ⟨⟨bytes, hnext⟩, hclear⟩)))
    · exact .inr (.inr (.inr (.inr ⟨n, hnext, hshape, hpend⟩)))

/-- Settles O24: of the ways a step can write PEND each sets it or clears it, and raising the NMI never clears it. -/
theorem whatSetsAndClearsPend : Obligations.WhatSetsAndClearsPend := by
  intro s t h
  refine ⟨fun hs ht => ?_, fun hs ht => ?_, fun _ hturn hphase => ?_⟩
  · rcases step_pend h with hkept | ⟨hraise, _⟩ | ⟨_, hclear⟩ | ⟨_, hclear⟩ | ⟨n, hnext, _, hpend⟩
    · simp [hs, ht] at hkept
    · exact .inl hraise
    · simp [ht] at hclear
    · simp [ht] at hclear
    · exact .inr ⟨n, hnext, by simpa [ht] using hpend⟩
  · rcases step_pend h with hkept | ⟨_, hset⟩ | ⟨hstep, _⟩ | ⟨hload, _⟩ | ⟨n, hnext, hshape, hpend⟩
    · simp [hs, ht] at hkept
    · simp [ht] at hset
    · exact .inl hstep
    · exact .inr (.inl hload)
    · have hne : n.pend ≠ 1 := by simpa [ht] using hpend
      exact .inr (.inr ⟨n, hnext, hshape.pend.resolve_right hne⟩)
  · cases h.symm.trans ((step_of_seqNext hturn).trans (seqTurn_of_rendered (s := s.turnTaken) hphase))
    rfl

end Sys2Proof.Machine
end

section
/-! PROOF. The frame sequencer: where a frame starts, how it ends, and what stops it (60_exceptions.md R210 to R218,
70_reset_and_hazards.md R252; O25 to O31). -/

namespace Sys2Proof.Machine

/-! ### Neither the CPU nor the rasterizer looks at the sequencer's own fields -/

/-- `s` with ACC, RUN, PHASE and the frame's budget of another state. -/
def State.withLoop (s other : State) : State :=
  { s with acc := other.acc, run := other.run, phase := other.phase, budget := other.budget }

theorem interruptService_withLoop (s other : State) :
    interruptService (s.withLoop other) = (interruptService s).withLoop other := by
  have hmem : (savedContext (s.withLoop other)).mem = (savedContext s).mem :=
    savedContext_mem_congr rfl rfl rfl rfl rfl
  simp only [interruptService_eq, memRead16, memRead, hmem]
  rfl

theorem exec_withLoop {i : Instr} {s t : State} (other : State) (h : exec i s = .next t) :
    exec i (s.withLoop other) = .next (t.withLoop other) := by
  cases i with
  | staAbs ea =>
    have hmem : (memWrite ea s.a (s.withLoop other)).mem = (memWrite ea s.a s).mem := memWrite_mem_congr rfl rfl
    cases (exec_staAbs ea s).symm.trans h
    exact (exec_staAbs ea (s.withLoop other)).trans (hmem ▸ rfl)
  | _ => cases h; rfl

/-- A CPU step reads and writes none of the four. -/
theorem cpuStep_withLoop {s t : State} {c : Nat} (other : State) (h : cpuStep s = .next (t, c)) :
    cpuStep (s.withLoop other) = .next (t.withLoop other, c) := by
  rcases cpuStep_cases s with ⟨hpend, hc⟩ | ⟨hpend, i, rest, u, hd, hu, hc⟩ <;> cases h.symm.trans hc
  · rw [cpuStep_of_pend (s := s.withLoop other) hpend, interruptService_withLoop]
  · exact cpuStep_of_decode (s := s.withLoop other) hd (exec_withLoop other hu) hpend

/-- RUN is not looked at in a CPU step. -/
theorem cpuStep_setRun {s t : State} {c : Nat} (b : Bool) (h : cpuStep s = .next (t, c)) :
    cpuStep (setRun b s) = .next (setRun b t, c) := by
  have hkept : t.withLoop (setRun b s) = setRun b t := by rw [(cpuStep_changes h).1]; rfl
  exact hkept ▸ cpuStep_withLoop (setRun b s) h

theorem frameOf_withLoop (s other : State) : frameOf (s.withLoop other) = frameOf s :=
  frameOf_sequencer s other.budget other.acc other.run other.phase s.turns

/-! ### The frame boundary -/

/-- With RUN = 1 a frame starts at a boundary (60_exceptions.md R210, R216). -/
theorem seqTurn_of_boundary_run {s : State} (hp : s.phase = .idle ∨ s.phase = .stopped) (hr : s.run = true) :
    seqTurn s = .next (beginFrame s) := by
  rw [seqTurn_of_boundary hp, frameBoundary, if_pos hr]

/-- With RUN = 0 the loop stops at a boundary (60_exceptions.md R216). -/
theorem seqTurn_of_boundary_stop {s : State} (hp : s.phase = .idle ∨ s.phase = .stopped) (hr : s.run = false) :
    seqTurn s = .next (s.setPhase .stopped) := by
  rw [seqTurn_of_boundary hp, frameBoundary, if_neg (Bool.eq_false_iff.mp hr)]

/-- Settles O25: the frame's budget is the ceiling of the rational one. -/
theorem frameStartReadsTheSpeed : Obligations.FrameStartReadsTheSpeed := by
  intro s hphase hrun
  exact ⟨frameBudget s.cfg s.speed, seqTurn_of_boundary_run hphase hrun, lt_frameBudget_iff s.cfg s.speed⟩

/-! ### The end of a frame -/

/-- Settles O26: one action of SEQ for each of the two phases. -/
theorem frameEndRasterizesThenRaisesTheNmi : Obligations.FrameEndRasterizesThenRaisesTheNmi :=
  fun _ => ⟨seqTurn_of_budget_reached, seqTurn_of_rendered⟩

/-- What the end of a frame makes of the state: the picture, then the NMI, at the boundary (60_exceptions.md R213,
R214). -/
def frameEnd (s : State) : State := { rasterize s with pend := true, phase := .idle }

/-- With nothing scheduled and the budget reached, the next two actions are the end of the frame. -/
theorem run_two_of_budget_reached {s : State} (hturns : s.turns = []) (hp : s.phase = .stepping)
    (hb : s.budget ≤ s.acc) : core.run 2 s = .next (frameEnd s) := by
  have hrasterize : step s = .next ((rasterize s).setPhase .rendered) :=
    (step_of_no_turns hturns).trans (seqTurn_of_budget_reached hp hb)
  have hraise : step ((rasterize s).setPhase .rendered) = .next (frameEnd s) :=
    (step_of_no_turns (s := (rasterize s).setPhase .rendered) hturns).trans (seqTurn_of_rendered rfl)
  rw [run_succ_of_next hrasterize, run_succ_of_next hraise, run_zero]

/-- With nothing scheduled a run from a boundary with RUN = 1 begins with the start of a frame. -/
theorem run_succ_of_boundary {s : State} (hturns : s.turns = []) (hp : s.phase = .idle) (hr : s.run = true) (k : Nat) :
    core.run (k + 1) s = core.run k (beginFrame s) :=
  run_succ_of_next ((step_of_no_turns hturns).trans (seqTurn_of_boundary_run (.inl hp) hr))

/-- The start of a frame writes the sequencer's own fields only. -/
theorem beginFrame_eq_withLoop (s : State) : beginFrame s = s.withLoop (beginFrame s) := rfl

/-- What the end of a frame writes does not depend on the sequencer's fields. -/
theorem frameEnd_withLoop (s other : State) :
    frameEnd (s.withLoop other) =
      { rasterize s with
        budget := other.budget, acc := other.acc, run := other.run, pend := true, phase := .idle } := by
  rw [frameEnd, rasterize, frameOf_withLoop]
  rfl

/-- Settles O27: a budget of 0 is reached before the first step, so the frame ends at once. -/
theorem zeroBudgetFrameRunsNoStep : Obligations.ZeroBudgetFrameRunsNoStep := by
  intro s hturns hphase hrun hzero
  have hbudget : frameBudget s.cfg s.speed = 0 := by
    refine Nat.eq_zero_of_not_pos ?_
    rw [lt_frameBudget_iff, hzero]
    exact Nat.not_lt_zero _
  have hend : core.run 2 (beginFrame s) = .next (frameEnd (beginFrame s)) :=
    run_two_of_budget_reached hturns rfl (Nat.le_of_eq hbudget)
  rw [run_succ_of_boundary hturns hphase hrun, hend, beginFrame_eq_withLoop, frameEnd_withLoop, beginFrame, hbudget]
  rfl

/-! ### The step loop of a frame -/

/-- `t` is in the step loop of the frame that `s` is in, with nothing scheduled: the budget is the frame's, at most 6
cycles are past it, and ACC grew by as much as CYC did (60_exceptions.md R210, R212). -/
structure SameFrame (s t : State) : Prop where
  no_turns : t.turns = []
  stepping : t.phase = .stepping
  budget_eq : t.budget = s.budget
  acc_le : t.acc ≤ s.budget + 6
  cyc_acc : t.cyc + s.acc = s.cyc + t.acc

/-- A step of the loop stays in the frame and counts at least 2 cycles (41_cpu_step.md R126). -/
theorem SameFrame.exists_step {s t : State} (h : SameFrame s t) (hlt : t.acc < t.budget) :
    ∃ u, step t = .next u ∧ SameFrame s u ∧ t.acc + 2 ≤ u.acc := by
  obtain ⟨u, c, hc⟩ := cpuStep_total t
  have hstep : step t = .next (u.addAcc c) :=
    (step_of_no_turns h.no_turns).trans (seqTurn_of_stepping h.stepping hlt hc)
  obtain ⟨hframe, hlo, hhi⟩ := cpuStep_changes hc
  obtain ⟨hturns, hphase, hbudget, hle, hcyc⟩ := h
  have hacc : (u.addAcc c).acc = t.acc + c := by rw [State.addAcc_acc, hframe]
  have hcyc' : (u.addAcc c).cyc = t.cyc + c := by rw [State.addAcc_cyc, hframe]
  refine ⟨u.addAcc c, hstep, ⟨?_, ?_, ?_, by omega, by omega⟩, by omega⟩
  · rw [State.addAcc_turns, hframe, hturns]
  · rw [State.addAcc_phase, hframe, hphase]
  · rw [State.addAcc_budget, hframe, hbudget]

/-- When at most `2 * k` cycles are left, at most `k` steps reach the budget. -/
theorem SameFrame.exists_run {s t : State} (h : SameFrame s t) {k : Nat} (hk : t.budget ≤ t.acc + 2 * k) :
    ∃ j u, j ≤ k ∧ core.run j t = .next u ∧ SameFrame s u ∧ u.budget ≤ u.acc := by
  induction k generalizing t with
  | zero => exact ⟨0, t, Nat.le_refl 0, run_zero t, h, hk⟩
  | succ k ih =>
    by_cases hlt : t.acc < t.budget
    · obtain ⟨u, hstep, hu, hacc⟩ := h.exists_step hlt
      have hbudget : u.budget = t.budget := hu.budget_eq.trans h.budget_eq.symm
      obtain ⟨j, v, hj, hrun, hv⟩ := ih hu (by omega)
      exact ⟨j + 1, v, Nat.succ_le_succ hj, (run_succ_of_next hstep).trans hrun, hv⟩
    · exact ⟨0, t, Nat.zero_le _, run_zero t, h, Nat.not_lt.mp hlt⟩

/-- Settles O28: each step counts 2 cycles or more, so half the budget's steps reach it, and the frame ends there. -/
theorem everyFrameEndsWithinHalfItsBudget : Obligations.EveryFrameEndsWithinHalfItsBudget := by
  intro s hturns hphase hacc
  have hstart : SameFrame s s := ⟨hturns, hphase, rfl, by omega, rfl⟩
  obtain ⟨k, u, hk, hrun, hu, hreached⟩ := hstart.exists_run (k := (s.budget + 1) / 2) (by omega)
  have hcyc : u.cyc = s.cyc + u.acc := by rw [← hu.cyc_acc, hacc, Nat.add_zero]
  have hpicture : frameOf u = frameOf (frameEnd u) := frameOf_congr rfl rfl rfl (.inr rfl)
  exact ⟨k, frameEnd u, hk, (run_add hrun).trans (run_two_of_budget_reached hu.no_turns hu.stepping hreached), rfl, rfl,
    hpicture, hu.budget_eq, hu.budget_eq ▸ hreached, hu.acc_le, hcyc⟩

/-! ### A starved program, and a stopped loop -/

/-- Settles O29: the budget is not reached before the service and is reached by its 7 cycles. -/
theorem smallBudgetFrameIsOneService : Obligations.SmallBudgetFrameIsOneService := by
  intro s hturns hphase hrun hpend hpos hsmall
  have hservice : step (beginFrame s) = .next ((interruptService (beginFrame s)).addAcc 7) :=
    (step_of_no_turns (s := beginFrame s) hturns).trans
      (seqTurn_of_stepping (s := beginFrame s) rfl hpos (cpuStep_of_pend (s := beginFrame s) hpend))
  have hcommutes : (interruptService (beginFrame s)).addAcc 7 =
      (interruptService s).withLoop ((beginFrame s).addAcc 7) :=
    congrArg (State.addAcc 7) (interruptService_withLoop s (beginFrame s))
  have hturns' : (interruptService s).turns = [] := by rw [interruptService_eq, hturns]
  rw [run_succ_of_boundary hturns hphase hrun, run_succ_of_next hservice, hcommutes,
    run_two_of_budget_reached (s := (interruptService s).withLoop ((beginFrame s).addAcc 7)) hturns' rfl hsmall,
    frameEnd_withLoop, interruptService_eq]
  rfl

/-- Settles O30: in the middle of a frame neither the CPU step, the rasterize nor the NMI looks at RUN. -/
theorem stopTakesEffectOnlyAtAFrameBoundary : Obligations.StopTakesEffectOnlyAtAFrameBoundary := by
  intro s t b
  refine ⟨?_, seqTurn_of_boundary_stop⟩
  rintro (hphase | hphase) h
  · by_cases hlt : s.acc < s.budget
    · obtain ⟨u, c, hc⟩ := cpuStep_total s
      cases (seqTurn_of_stepping hphase hlt hc).symm.trans h
      exact seqTurn_of_stepping (s := setRun b s) hphase hlt (cpuStep_setRun b hc)
    · have hreached : s.budget ≤ s.acc := Nat.not_lt.mp hlt
      have hpicture : rasterize (setRun b s) = setRun b (rasterize s) :=
        congrArg (State.setFb · (setRun b s)) (frameOf_withLoop s (setRun b s))
      cases (seqTurn_of_budget_reached hphase hreached).symm.trans h
      exact (seqTurn_of_budget_reached (s := setRun b s) hphase hreached).trans
        (congrArg (fun u => Host.Outcome.next (u.setPhase .rendered)) hpicture)
  · cases (seqTurn_of_rendered hphase).symm.trans h
    exact seqTurn_of_rendered (s := { s with run := b }) hphase

/-- A faulted SEQ leaves the state (60_exceptions.md R217). -/
theorem seqTurn_of_faulted {s : State} (hp : s.phase = .faulted) : seqTurn s = .next s := by
  unfold seqTurn
  rw [hp]

/-- The host writes PHASE by SeqFault only. -/
theorem hostAction_phase {action : HostAction} {s u : State} {r : HostReply}
    (h : hostAction action s = .next (u, r)) : u.phase = s.phase ∨ u.phase = .faulted := by
  rcases hostAction_cases h with ⟨_, _, _, _, rfl, _⟩ | ⟨_, _, _, _, rfl⟩ | ⟨_, _, _, _, rfl⟩ | ⟨_, rfl⟩ |
    ⟨_, _, _, rfl⟩ | ⟨_, _, rfl⟩ | ⟨_, rfl⟩ | ⟨_, rfl⟩ | ⟨_, rfl⟩ | ⟨_, rfl⟩ | ⟨_, _, rfl⟩ | ⟨_, rfl⟩
  case inr.inr.inl => exact .inl (by rw [setKey_changes])
  pick_goal -1
  · exact .inr rfl
  all_goals exact .inl rfl

/-- Settles O31: SEQ's turn keeps the state, and no port writes PHASE to anything but faulted. -/
theorem faultedSequencerTakesNoAction : Obligations.FaultedSequencerTakesNoAction := by
  intro s t hphase h
  have hkept (hturn : s.SeqNext) : t = s.turnTaken := by
    cases h.symm.trans ((step_of_seqNext hturn).trans (seqTurn_of_faulted (s := s.turnTaken) hphase))
    rfl
  refine ⟨?_, hkept⟩
  rcases step_inv h with ⟨hturn, _⟩ | ⟨action, u, r, _, hact, rfl⟩
  · rw [hkept hturn]
    exact hphase
  · exact (hostAction_phase hact).elim (·.trans hphase) id

end Sys2Proof.Machine
end

section
/-! PROOF. Reset and the hazards: the invariant at reset, a machine with nothing in M, code that is written, and a load
without patterns (70_reset_and_hazards.md; O18, O21, O40, O55). -/

namespace Sys2Proof.Machine

/-- Settles O55: every array is empty, there is no record, and R7's configuration passes its checks. -/
theorem resetMeetsTheInvariant : Obligations.ResetMeetsTheInvariant where
  cfg_wf := by decide
  mem_wf := rfl
  pat_wf := rfl
  nt_wf := rfl
  pal_wf := rfl
  fb_wf := rfl
  loaded_cart := rfl
  cart_ok := fun _ h => nomatch h
  acc_bound := Nat.zero_le _

/-- Settles O21: the opcode byte read is 0x00, which has the default entry. -/
theorem zeroMemoryRunsFallbacks : Obligations.ZeroMemoryRunsFallbacks := by
  intro s hmem hwf hpend
  have hbytes : fetchBytes s = [0x00, 0x00, 0x00] := by simp [fetchBytes, memRead, hmem]
  have hd : decode s.cfg (fetchBytes s) = .ok (.unimpl 0x00, [0x00, 0x00]) := by
    rw [hbytes]
    exact decode_of_unimpl (handlerOf_unimpl_iff.mpr hwf)
  exact cpuStep_of_decode hd (exec_unimpl 0x00 s) hpend

/-- The byte a fetch reads at each of its three places. -/
theorem fetchBytes_getElem? (s : State) (k : Fin 3) :
    (fetchBytes s)[k.val]? = some (memRead s (s.pc + BitVec.ofNat 16 k.val)) := by
  fin_cases k
  · simp [fetchBytes]
  · rfl
  · rfl

/-- Settles O18: the fetch reads M, where the store has just put A. -/
theorem storedCodeIsFetchedNext : Obligations.StoredCodeIsFetchedNext := by
  intro s t ea k hm hstored h hk
  cases (exec_staAbs ea s).symm.trans h
  have hbyte : memRead (memWrite ea s.a s) ea = s.a := (memRead_memWrite_self hm).trans (if_pos hstored)
  rw [fetchBytes_getElem?, hk]
  exact congrArg some hbyte

/-- Settles O40: the colours lie at 0x3F00 in PAT, past the one bank a load can have filled. -/
theorem onePatternBankGivesABlankPicture : Obligations.OnePatternBankGivesABlankPicture := by
  intro s t bytes hload hbanks hsource
  have hcfg : t.cfg = s.cfg := by rw [(load_ok hload).1]; rfl
  rw [rasterize_fb]
  refine frameOf_eq_nil fun y x => ?_
  have hpixel : pixelAt t y x < 4 := pixelValue_lt _ _ _
  have hcolour : Memory.read t.pat (0x3F00 + pixelAt t y x) = 0 := by
    rw [loadFillsThePatternMemory s t bytes _ hload (by omega), if_neg (by omega)]
  rw [colourAt, paletteRead_of_patternSpace (hcfg ▸ hsource), hcolour]
  rfl

end Sys2Proof.Machine
end
